-- ==== Sys2Proof/Word.lean ====
section
/-! DEFINITION. The word types of the hardware (spec/00_scope.md R3, R4). -/

namespace Sys2Proof

/-- A TOY8 word: 8 bits (R3). -/
abbrev Byte := BitVec 8

/-- A TOY8 word address, also the width of PC and of the operand field: 4 bits (R3). -/
abbrev Addr := BitVec 4

/-- The opcode field of both formats: 4 bits (R3, R4). -/
abbrev Opcode := BitVec 4

/-- A word of the LC3D decode unit: 16 bits (R4). -/
abbrev Lc3Word := BitVec 16

/-- An LC3D register number, 0 to 7 (R4, R23). -/
abbrev RegNum := BitVec 3

/-- The raw LC3D immediate field (R4, R57). -/
abbrev Imm5 := BitVec 5

end Sys2Proof
end

