-- ==== Sys2Proof/Machine/Codec.lean ====
section
/-! DEFINITION. The bit-field functions the two blocks share (spec/40_codec_and_lc3_decode.md section 1 to 3) and the
notation of spec/00_scope.md R6 and R7. A call outside a function's domain has no result (`none`): the spec refuses it. -/

namespace Sys2Proof.Machine

/-- `mask_N(v) = v mod 2^N`, the non-negative residue of any integer (R7). -/
def maskNat (n : Nat) (v : Int) : Nat := (v % ((2 ^ n : Nat) : Int)).toNat

/-- `mask_N(v)` as the N-bit value a register or a field holds (R7). -/
def mask (n : Nat) (v : Int) : BitVec n := BitVec.ofNat n (maskNat n v)

/-- `sext_N(v)`: the signed value of the pattern `mask_N(v)` (R7). -/
def sext (n : Nat) (v : Int) : Int :=
  if maskNat n v < 2 ^ (n - 1) then (maskNat n v : Int) else (maskNat n v : Int) - ((2 ^ n : Nat) : Int)

/-- `v[hi:lo]`, right-aligned (R6). -/
def slice (v hi lo : Nat) : Nat := v / 2 ^ lo % 2 ^ (hi - lo + 1)

/-- extractField at word width W (R80, R81): a word of 2^W or more is masked first; a reversed or out-of-word range has
no meaning. -/
def extractField (W word hi lo : Nat) : Option Nat :=
  if lo ≤ hi ∧ hi < W then some (slice (word % 2 ^ W) hi lo) else none

/-- signExtend (R82): the value is masked to the width first; width 0 has no meaning. -/
def signExtend (value : Int) (width : Nat) : Option Int :=
  if width = 0 then none else some (sext width value)

/-- The accumulator loop of composeWord (R84): fields most significant first, each masked to its own width (R85). -/
def packFields (acc : Nat) : List (Int × Nat) → Nat
  | [] => acc
  | (value, width) :: fields => packFields (acc * 2 ^ width + maskNat width value) fields

/-- composeWord at word width W (R84, R85). -/
def composeWord (W : Nat) (fields : List (Int × Nat)) : Nat := packFields 0 fields % 2 ^ W

/-- The fields of a word for a layout that ends at bit `top - 1`, most significant first (R86). -/
def decomposeFrom (W word : Nat) : (top : Nat) → List Nat → Option (List Nat)
  | _, [] => some []
  | top, width :: layout =>
    if top < width ∨ width = 0 then none
    else
      match extractField W word (top - 1) (top - width), decomposeFrom W word (top - width) layout with
      | some f, some fs => some (f :: fs)
      | _, _ => none

/-- decompose: the extractField results for the consecutive ranges of a layout (R86). -/
def decompose (W word : Nat) (layout : List Nat) : Option (List Nat) := decomposeFrom W word W layout

end Sys2Proof.Machine
end

