-- ==== Sys2Proof/Syntax.lean ====
section
/-! DEFINITION. The syntax: the seven mnemonics, the LC3D operand forms, and one constructor of Instr per row of
spec/opcode_table.json. -/

namespace Sys2Proof

/-- The seven mnemonics of the TOY8 core, in the order of R53. -/
inductive Mnemonic
  | halt
  | load
  | add
  | sub
  | store
  | jump
  | jumpIfZero
  deriving DecidableEq, Repr

/-- All seven mnemonics, in the order of R53. -/
def Mnemonic.all : List Mnemonic :=
  [.halt, .load, .add, .sub, .store, .jump, .jumpIfZero]

/-- The second operand of an LC3D word (R57): with mode = 1 a signed immediate, with mode = 0 the raw bits 4..0, to which
the spec gives no meaning. -/
inductive Lc3Operand
  | imm (value : Int)
  | raw (bits : Imm5)
  deriving DecidableEq, Repr

/-- The instructions, one constructor per row of spec/opcode_table.json. HALT and the unassigned words keep their operand
bits, which Execute ignores (R55). `unassigned7` to `unassigned15` are, in rising order, the nine opcode numbers outside
the image of OPC; with the default OPC they are 7 to 15 (R54; assumption 8). -/
inductive Instr
  | halt (operand : Addr)
  | load (a : Addr)
  | add (a : Addr)
  | sub (a : Addr)
  | store (a : Addr)
  | jump (a : Addr)
  | jumpIfZero (a : Addr)
  | unassigned7 (operand : Addr)
  | unassigned8 (operand : Addr)
  | unassigned9 (operand : Addr)
  | unassigned10 (operand : Addr)
  | unassigned11 (operand : Addr)
  | unassigned12 (operand : Addr)
  | unassigned13 (operand : Addr)
  | unassigned14 (operand : Addr)
  | unassigned15 (operand : Addr)
  | lc3dOp0 (dr sr1 : RegNum) (src : Lc3Operand)
  | lc3dAdd (dr sr1 : RegNum) (src : Lc3Operand)
  | lc3dOp2 (dr sr1 : RegNum) (src : Lc3Operand)
  | lc3dOp3 (dr sr1 : RegNum) (src : Lc3Operand)
  | lc3dOp4 (dr sr1 : RegNum) (src : Lc3Operand)
  | lc3dOp5 (dr sr1 : RegNum) (src : Lc3Operand)
  | lc3dOp6 (dr sr1 : RegNum) (src : Lc3Operand)
  | lc3dOp7 (dr sr1 : RegNum) (src : Lc3Operand)
  | lc3dOp8 (dr sr1 : RegNum) (src : Lc3Operand)
  | lc3dOp9 (dr sr1 : RegNum) (src : Lc3Operand)
  | lc3dOp10 (dr sr1 : RegNum) (src : Lc3Operand)
  | lc3dOp11 (dr sr1 : RegNum) (src : Lc3Operand)
  | lc3dOp12 (dr sr1 : RegNum) (src : Lc3Operand)
  | lc3dOp13 (dr sr1 : RegNum) (src : Lc3Operand)
  | lc3dOp14 (dr sr1 : RegNum) (src : Lc3Operand)
  | lc3dOp15 (dr sr1 : RegNum) (src : Lc3Operand)
  deriving DecidableEq, Repr

/-- An instruction word of either block: the two never mix in one memory (R59). -/
inductive CodeWord
  | toy8 (w : Byte)
  | lc3d (w : Lc3Word)
  deriving DecidableEq, Repr

end Sys2Proof
end

