-- ==== Sys2Proof/Config.lean ====
section
/-! DEFINITION. The parameters of the machine: the fixed ones (spec/00_scope.md R3) and the open ones (R5), which the
model takes as arguments. -/

namespace Sys2Proof

/-- N, the number of memory words (R3, R30). -/
abbrev memorySize : Nat := 16

/-- The open parameters of R5 but for INIT_MEM, which is the argument of `State.powerOn`. They do not change during a run
(R179). -/
structure Params where
  /-- OPC: the opcode number of each mnemonic. -/
  opc : Mnemonic → Opcode
  /-- DATA_BASE: the first address of the reserved data region; 16 means there is none. -/
  dataBase : Nat
  /-- DATA_SEED: the word each address of the data region holds after a load. -/
  dataSeed : Addr → Byte

/-- The default OPC of R5 and R53 (DESIGN CHOICE, the spec's decision D3; assumption 1). -/
def defaultOpc : Mnemonic → Opcode
  | .halt => 0
  | .load => 1
  | .add => 2
  | .sub => 3
  | .store => 4
  | .jump => 5
  | .jumpIfZero => 6

/-- The default DATA_SEED of R5: address 14 holds 5, address 15 holds 3 (DESIGN CHOICE, the spec's decision D6;
assumption 2). Addresses below DATA_BASE are not read. -/
def defaultSeed (a : Addr) : Byte :=
  if a = 14 then 5 else if a = 15 then 3 else 0

/-- The defaults of R5 (assumptions 1 and 2). -/
def Params.default : Params where
  opc := defaultOpc
  dataBase := 14
  dataSeed := defaultSeed

end Sys2Proof
end

