-- ==== Sys2Proof/WellFormed.lean ====
section
/-! DEFINITION. Well-formedness of instructions, of the open parameters and of the list a load takes. -/

namespace Sys2Proof

/-- An LC3D immediate is in -16..15 (R57); any raw field is well formed. -/
def Lc3Operand.wf : Lc3Operand → Bool
  | .imm v => decide (-16 ≤ v) && decide (v ≤ 15)
  | .raw _ => true

/-- A well-formed instruction: every TOY8 operand value is a valid address (R52), so only an LC3D immediate can be
ill-formed. -/
def Instr.wf : Instr → Bool
  | .halt _ => true
  | .load _ => true
  | .add _ => true
  | .sub _ => true
  | .store _ => true
  | .jump _ => true
  | .jumpIfZero _ => true
  | .unassigned7 _ => true
  | .unassigned8 _ => true
  | .unassigned9 _ => true
  | .unassigned10 _ => true
  | .unassigned11 _ => true
  | .unassigned12 _ => true
  | .unassigned13 _ => true
  | .unassigned14 _ => true
  | .unassigned15 _ => true
  | .lc3dOp0 _ _ src => src.wf
  | .lc3dAdd _ _ src => src.wf
  | .lc3dOp2 _ _ src => src.wf
  | .lc3dOp3 _ _ src => src.wf
  | .lc3dOp4 _ _ src => src.wf
  | .lc3dOp5 _ _ src => src.wf
  | .lc3dOp6 _ _ src => src.wf
  | .lc3dOp7 _ _ src => src.wf
  | .lc3dOp8 _ _ src => src.wf
  | .lc3dOp9 _ _ src => src.wf
  | .lc3dOp10 _ _ src => src.wf
  | .lc3dOp11 _ _ src => src.wf
  | .lc3dOp12 _ _ src => src.wf
  | .lc3dOp13 _ _ src => src.wf
  | .lc3dOp14 _ _ src => src.wf
  | .lc3dOp15 _ _ src => src.wf

/-- The parameters are as R5 says: OPC is injective and DATA_BASE is in 0..16. -/
def Params.wf (P : Params) : Bool :=
  decide (Mnemonic.all.map P.opc).Nodup && decide (P.dataBase ≤ memorySize)

/-- The list a load takes has at most 16 words (R34). -/
def loadListWf (words : List Int) : Bool :=
  decide (words.length ≤ memorySize)

end Sys2Proof
end

