-- ==== Sys2Proof/Decode.lean ====
section
/-! DEFINITION. Decoding and encoding of both formats (spec/30_encoding.md R50 to R59, spec/40_codec_and_lc3_decode.md R88,
R90, R91). Every 8-bit and every 16-bit word decodes (R50, R88); a word of any other width has no format and is rejected
by name. -/

namespace Sys2Proof

open Sys2Proof.Machine

/-- `opc(w) = w[7:4]` (R51, R91). -/
def opcodeOf (w : Byte) : Opcode := mask 4 (slice w.toNat 7 4)

/-- `opd(w) = w[3:0]` (R51, R52, R91). -/
def operandOf (w : Byte) : Addr := mask 4 (slice w.toNat 3 0)

/-- The opcode number is the image of some mnemonic. -/
def Params.assigned (P : Params) (op : Opcode) : Bool := (Mnemonic.all.map P.opc).contains op

/-- The opcode numbers outside the image of OPC, rising (R54). -/
def Params.unassigned (P : Params) : List Opcode :=
  ((List.range 16).map (BitVec.ofNat 4)).filter (fun op => !P.assigned op)

/-- The mnemonic of an opcode number, tried in the order of R104. -/
def Params.mnemonicOf (P : Params) (op : Opcode) : Option Mnemonic :=
  Mnemonic.all.find? (fun m => op == P.opc m)

/-- The instruction of a mnemonic with an operand. -/
def Instr.ofMnemonic : Mnemonic → Addr → Instr
  | .halt, a => .halt a
  | .load, a => .load a
  | .add, a => .add a
  | .sub, a => .sub a
  | .store, a => .store a
  | .jump, a => .jump a
  | .jumpIfZero, a => .jumpIfZero a

/-- The k-th unassigned opcode number as an instruction (assumption 8). -/
def Instr.ofUnassigned (k : Nat) (a : Addr) : Instr :=
  match k with
  | 0 => .unassigned7 a
  | 1 => .unassigned8 a
  | 2 => .unassigned9 a
  | 3 => .unassigned10 a
  | 4 => .unassigned11 a
  | 5 => .unassigned12 a
  | 6 => .unassigned13 a
  | 7 => .unassigned14 a
  | _ => .unassigned15 a

/-- Decode of a TOY8 word (R51, R104): total, an opcode that no mnemonic has is an unassigned one (R54). -/
def decodeToy8 (P : Params) (w : Byte) : Instr :=
  match P.mnemonicOf (opcodeOf w) with
  | some m => Instr.ofMnemonic m (operandOf w)
  | none => Instr.ofUnassigned (P.unassigned.idxOf (opcodeOf w)) (operandOf w)

/-- The LC3D instruction of an opcode number and its other fields (R88, R89). -/
def Instr.ofLc3d (op : Opcode) (dr sr1 : RegNum) (src : Lc3Operand) : Instr :=
  match op.toNat with
  | 0 => .lc3dOp0 dr sr1 src
  | 1 => .lc3dAdd dr sr1 src
  | 2 => .lc3dOp2 dr sr1 src
  | 3 => .lc3dOp3 dr sr1 src
  | 4 => .lc3dOp4 dr sr1 src
  | 5 => .lc3dOp5 dr sr1 src
  | 6 => .lc3dOp6 dr sr1 src
  | 7 => .lc3dOp7 dr sr1 src
  | 8 => .lc3dOp8 dr sr1 src
  | 9 => .lc3dOp9 dr sr1 src
  | 10 => .lc3dOp10 dr sr1 src
  | 11 => .lc3dOp11 dr sr1 src
  | 12 => .lc3dOp12 dr sr1 src
  | 13 => .lc3dOp13 dr sr1 src
  | 14 => .lc3dOp14 dr sr1 src
  | _ => .lc3dOp15 dr sr1 src

/-- The operand of an LC3D word (R57): the sign-extended immediate when bit 5 is 1, else the raw field. -/
def lc3dOperandOf (w : Lc3Word) : Lc3Operand :=
  if slice w.toNat 5 5 = 1 then .imm (sext 5 (slice w.toNat 4 0)) else .raw (mask 5 (slice w.toNat 4 0))

/-- LC3D.DECODE (R56, R88): one layout for every word, whatever its opcode. -/
def decodeLc3d (w : Lc3Word) : Instr :=
  Instr.ofLc3d (mask 4 (slice w.toNat 15 12)) (mask 3 (slice w.toNat 11 9)) (mask 3 (slice w.toNat 8 6))
    (lc3dOperandOf w)

/-- Decode of a word of either block. -/
def decodeWith (P : Params) : CodeWord → Instr
  | .toy8 w => decodeToy8 P w
  | .lc3d w => decodeLc3d w

/-- Why a word is not decoded: only for want of a format of its width. -/
inductive DecodeReject
  | noFormatOfWidth (nbits : Nat)
  deriving DecidableEq, Repr

/-- The instruction of a word given as its width and its bits: 8 bits are a TOY8 word and 16 bits an LC3D word (R50, R59);
bits above the width are masked off (R7, R8; assumption 20). -/
def decodeBits (P : Params) (nbits w : Nat) : Except DecodeReject Instr :=
  if nbits = 8 then .ok (decodeToy8 P (BitVec.ofNat 8 w))
  else if nbits = 16 then .ok (decodeLc3d (BitVec.ofNat 16 w))
  else .error (.noFormatOfWidth nbits)

/-- The decoder as spec/opcode_table.json numbers an instruction's bits, with the default parameters the table uses. -/
def decodeTableWord (nbits w : Nat) : Option Instr :=
  match decodeBits Params.default nbits w with
  | .ok i => some i
  | .error _ => none

/-- A TOY8 word from its opcode number and operand (R51, R91); the operand is any integer and is masked (R67). -/
def toy8Word (op : Opcode) (operand : Int) : Byte := mask 8 (composeWord 8 [(op.toNat, 4), (operand, 4)])

/-- The raw imm5 field of an LC3D operand: a signed immediate `i` is entered as `mask_5(i)` (R90). -/
def Lc3Operand.imm5 : Lc3Operand → Imm5
  | .imm v => mask 5 v
  | .raw b => b

/-- The mode bit of an LC3D operand (R57). -/
def Lc3Operand.mode : Lc3Operand → BitVec 1
  | .imm _ => 1
  | .raw _ => 0

/-- LC3D.ENCODE (R90). -/
def lc3dWord (op : Opcode) (dr sr1 : RegNum) (src : Lc3Operand) : Lc3Word :=
  mask 16 (composeWord 16
    [(op.toNat, 4), (dr.toNat, 3), (sr1.toNat, 3), (src.mode.toNat, 1), (src.imm5.toNat, 5)])

/-- The word of the k-th unassigned opcode number with an operand (assumption 8). -/
def unassignedWord (P : Params) (k : Nat) (a : Addr) : Byte := toy8Word (P.unassigned.getD k 0) a.toNat

/-- The word of an instruction (R51, R53, R90). -/
def encodeWith (P : Params) : Instr → CodeWord
  | .halt a => .toy8 (toy8Word (P.opc .halt) a.toNat)
  | .load a => .toy8 (toy8Word (P.opc .load) a.toNat)
  | .add a => .toy8 (toy8Word (P.opc .add) a.toNat)
  | .sub a => .toy8 (toy8Word (P.opc .sub) a.toNat)
  | .store a => .toy8 (toy8Word (P.opc .store) a.toNat)
  | .jump a => .toy8 (toy8Word (P.opc .jump) a.toNat)
  | .jumpIfZero a => .toy8 (toy8Word (P.opc .jumpIfZero) a.toNat)
  | .unassigned7 a => .toy8 (unassignedWord P 0 a)
  | .unassigned8 a => .toy8 (unassignedWord P 1 a)
  | .unassigned9 a => .toy8 (unassignedWord P 2 a)
  | .unassigned10 a => .toy8 (unassignedWord P 3 a)
  | .unassigned11 a => .toy8 (unassignedWord P 4 a)
  | .unassigned12 a => .toy8 (unassignedWord P 5 a)
  | .unassigned13 a => .toy8 (unassignedWord P 6 a)
  | .unassigned14 a => .toy8 (unassignedWord P 7 a)
  | .unassigned15 a => .toy8 (unassignedWord P 8 a)
  | .lc3dOp0 dr sr1 src => .lc3d (lc3dWord 0 dr sr1 src)
  | .lc3dAdd dr sr1 src => .lc3d (lc3dWord 1 dr sr1 src)
  | .lc3dOp2 dr sr1 src => .lc3d (lc3dWord 2 dr sr1 src)
  | .lc3dOp3 dr sr1 src => .lc3d (lc3dWord 3 dr sr1 src)
  | .lc3dOp4 dr sr1 src => .lc3d (lc3dWord 4 dr sr1 src)
  | .lc3dOp5 dr sr1 src => .lc3d (lc3dWord 5 dr sr1 src)
  | .lc3dOp6 dr sr1 src => .lc3d (lc3dWord 6 dr sr1 src)
  | .lc3dOp7 dr sr1 src => .lc3d (lc3dWord 7 dr sr1 src)
  | .lc3dOp8 dr sr1 src => .lc3d (lc3dWord 8 dr sr1 src)
  | .lc3dOp9 dr sr1 src => .lc3d (lc3dWord 9 dr sr1 src)
  | .lc3dOp10 dr sr1 src => .lc3d (lc3dWord 10 dr sr1 src)
  | .lc3dOp11 dr sr1 src => .lc3d (lc3dWord 11 dr sr1 src)
  | .lc3dOp12 dr sr1 src => .lc3d (lc3dWord 12 dr sr1 src)
  | .lc3dOp13 dr sr1 src => .lc3d (lc3dWord 13 dr sr1 src)
  | .lc3dOp14 dr sr1 src => .lc3d (lc3dWord 14 dr sr1 src)
  | .lc3dOp15 dr sr1 src => .lc3d (lc3dWord 15 dr sr1 src)

/-- The words of an instruction with the default parameters. -/
def encode (i : Instr) : CodeWord := encodeWith Params.default i

end Sys2Proof
end

