-- ==== Sys2Proof/Machine/Assembler.lean ====
section
/-! DEFINITION. The assembler (spec/30_encoding.md R60 to R73): source lines to the words it emits, and the canonical text
of a word. A line is a list of characters. It never fails (R8, R60). -/

namespace Sys2Proof.Machine

/-- The characters R63 counts as whitespace: space, tab, carriage return (decision D10; assumption 13). -/
def isBlank (c : Char) : Bool := c == ' ' || c == '\t' || c == '\r'

/-- The line up to its first `;` (R61). -/
def stripComment (line : List Char) : List Char := line.takeWhile (fun c => c != ';')

/-- Leading and trailing whitespace removed (R61). -/
def trimBlanks (line : List Char) : List Char :=
  ((line.dropWhile isBlank).reverse.dropWhile isBlank).reverse

/-- The maximal runs of non-blank characters (R63); `word` holds the token being read. -/
def tokensFrom (word : List Char) : List Char → List (List Char)
  | [] => if word.isEmpty then [] else [word]
  | c :: rest =>
    if isBlank c then (if word.isEmpty then tokensFrom [] rest else word :: tokensFrom [] rest)
    else tokensFrom (word ++ [c]) rest

/-- The tokens of a line (R63). -/
def tokens (line : List Char) : List (List Char) := tokensFrom [] line

/-- ASCII letters folded to upper case (R64). -/
def upperChar (c : Char) : Char :=
  if 97 ≤ c.toNat ∧ c.toNat ≤ 122 then Char.ofNat (c.toNat - 32) else c

/-- The spelling of a mnemonic (R64, decision D4). -/
def spelling : Mnemonic → List Char
  | .halt => ['H', 'A', 'L', 'T']
  | .load => ['L', 'O', 'A', 'D']
  | .add => ['A', 'D', 'D']
  | .sub => ['S', 'U', 'B']
  | .store => ['S', 'T', 'O', 'R', 'E']
  | .jump => ['J', 'U', 'M', 'P']
  | .jumpIfZero => ['J', 'U', 'M', 'P', '_', 'I', 'F', '_', 'Z', 'E', 'R', 'O']

/-- The mnemonic a token spells, in any letter case (R64). -/
def lookupMnemonic (token : List Char) : Option Mnemonic :=
  Mnemonic.all.find? (fun m => token.map upperChar == spelling m)

/-- A decimal digit. -/
def isDigit (c : Char) : Bool := decide (48 ≤ c.toNat) && decide (c.toNat ≤ 57)

/-- The value of a string of digits, read on from `acc`. -/
def digitsValue (acc : Nat) : List Char → Nat
  | [] => acc
  | c :: rest => digitsValue (acc * 10 + (c.toNat - 48)) rest

/-- The value of one or more digits. -/
def decimal (token : List Char) : Option Nat :=
  if token.isEmpty || !token.all isDigit then none else some (digitsValue 0 token)

/-- The operand value of the second token (R66): digits, or `-` and digits; absent or anything else is 0 (decisions D8,
D9; assumption 13). -/
def operandValue : Option (List Char) → Int
  | none => 0
  | some [] => 0
  | some ('-' :: rest) => -(((decimal rest).getD 0 : Nat) : Int)
  | some token => (((decimal token).getD 0 : Nat) : Int)

/-- What a line asks for: a mnemonic and an operand value, or nothing (R61 to R66). -/
def parseLine (line : List Char) : Option (Mnemonic × Int) :=
  match tokens (trimBlanks (stripComment line)) with
  | [] => none
  | first :: rest =>
    match lookupMnemonic first with
    | none => none
    | some m => some (m, operandValue rest.head?)

/-- The words emitted by lines, `emitted` holding those so far (R60, R67): a recognised instruction met when the
instruction region is full is dropped (R68). -/
def emitLines (P : Params) (emitted : List Byte) : List (List Char) → List Byte
  | [] => emitted
  | line :: rest =>
    match parseLine line with
    | none => emitLines P emitted rest
    | some (m, d) =>
      if emitted.length < P.dataBase then emitLines P (emitted ++ [toy8Word (P.opc m) d]) rest
      else emitLines P emitted rest

/-- The words a source emits, in address order from 0. -/
def assembleWords (P : Params) (source : List (List Char)) : List Byte := emitLines P [] source

/-- The word a load gives an address (R34): the list's where it has one, else the image policy's, which is DATA_SEED in
the data region and 0 below it (decisions D6, D26, D32; assumptions 2 and 15). -/
def imageWord (P : Params) (words : List Int) (a : Addr) : Byte :=
  match words[a.toNat]? with
  | some v => mask 8 v
  | none => if P.dataBase ≤ a.toNat then P.dataSeed a else 0

/-- The image of a source (R69): its 16 words. -/
def assemble (P : Params) (source : List (List Char)) : List Byte :=
  (List.range memorySize).map fun a =>
    imageWord P ((assembleWords P source).map fun w : Byte => (w.toNat : Int)) (BitVec.ofNat 4 a)

/-- A source text cut into lines at line feeds (R164 gives the text as one; DEDUCED, assumption 14). -/
def linesFrom (line : List Char) : List Char → List (List Char)
  | [] => [line]
  | c :: rest => if c == '\n' then line :: linesFrom [] rest else linesFrom (line ++ [c]) rest

/-- The lines of a source text. -/
def sourceLines (text : List Char) : List (List Char) := linesFrom [] text

/-- The decimal digits of a number of at most two digits. -/
def decimalText (n : Nat) : List Char :=
  if n < 10 then [Char.ofNat (48 + n)] else [Char.ofNat (48 + n / 10), Char.ofNat (48 + n % 10)]

/-- The listing of a word: canonical text, or a bare number (R73). -/
inductive Listing
  | text (line : List Char)
  | number (w : Byte)
  deriving DecidableEq, Repr

/-- The canonical text of a TOY8 word (R73): mnemonic and decimal operand; HALT with operand 0 has none; a word with an
unassigned opcode has no assembly text. -/
def listing (P : Params) (w : Byte) : Listing :=
  match P.mnemonicOf (opcodeOf w) with
  | none => .number w
  | some m =>
    if m = .halt ∧ operandOf w = 0 then .text (spelling m)
    else .text (spelling m ++ ' ' :: decimalText (operandOf w).toNat)

end Sys2Proof.Machine
end

