-- ==== Sys2Proof/Machine/State.lean ====
section
/-! DEFINITION. The state of the machine (spec/10_state.md R10), the reasons a step can stop, and the power-on state (R25). -/

namespace Sys2Proof.Machine

/-- PHASE: the phase the next step event performs (R17). -/
inductive Phase
  | fetch
  | decode
  | execute
  | halted
  deriving DecidableEq, Repr

/-- The status a step event returns (R24, R100). -/
inductive Status
  | ok
  | alreadyHalted
  deriving DecidableEq, Repr

/-- The outputs of the LC3D decode unit (R88): the five raw fields, and the immediate operand when mode = 1. -/
structure Lc3dOutputs where
  opcode : Opcode
  dr     : RegNum
  sr1    : RegNum
  mode   : BitVec 1
  imm5   : Imm5
  imm    : Option Int
  deriving DecidableEq, Repr

/-- What an event returned to the host: nothing (reset and load, R24), the status of a step event, or the outputs of the
LC3D unit. An output, not state of the hardware (R23, R24; assumption 6). -/
inductive Response
  | none
  | status (st : Status)
  | lc3d (out : Lc3dOutputs)
  deriving DecidableEq, Repr

/-- The host's moves (R165, R179): the three events, the one-call form of assembly followed by load (R71, R164), and a word
presented to the input of the LC3D unit (R36, R88). -/
inductive HostEvent
  | reset
  | load (words : List Int)
  | assemble (source : List (List Char))
  | step
  | decode (w : Lc3Word)
  deriving DecidableEq, Repr

/-- M (R21): the words that have a value, as pairs of a word address and a word. -/
abbrev Memory := List Host.Cell

/-- The state. The first five fields are the hardware's, complete by R10; `inputs` and `response` are the model's own
(assumptions 5 and 6). -/
structure State where
  /-- PC (R11, R12). -/
  pc : Addr
  /-- IR (R13). -/
  ir : Byte
  /-- AC (R14). -/
  ac : Byte
  /-- PHASE (R17). -/
  phase : Phase
  /-- M (R21). -/
  mem : Memory
  /-- The host events not yet performed, oldest first; when there is none the next event is a step event. -/
  inputs : List HostEvent
  /-- What the last event returned or showed. -/
  response : Response
  deriving DecidableEq, Repr

/-- Why the machine stops with a fault. -/
inductive Fault
  /-- A memory access outside 0..15 (R33). Raised by `readThen` and `writeThen`; no step reaches it, because every
  address the core forms has 4 bits. Safe. -/
  | outOfRange (addr : Nat)
  deriving DecidableEq, Repr

/-- Why the model gives no next state. -/
inductive Refusal
  /-- An instruction that has no meaning yet. Raised by no arm of this model. Safe. -/
  | notModelled (mnemonic : String)
  /-- A read of a memory word that has no value because nothing was loaded since power-on (R162, R166). Raised by
  `readThen`. Safe: the spec asks the model to refuse (assumption 3). -/
  | unloadedMemory (addr : Nat)
  /-- A load list of more than 16 words (R34, decision D26). Raised by `loadEvent`. Safe. -/
  | imageTooLong (words : Nat)
  deriving DecidableEq, Repr

/-- The outcome of one event of this machine. -/
abbrev Result := Host.Outcome State Fault Refusal

/-- The state at power-on (R25, R162): the registers as the spec says, and no memory word with a value (assumption 3). -/
def State.reset : State where
  pc := 0
  ir := 0
  ac := 0
  phase := .fetch
  mem := []
  inputs := []
  response := .none

end Sys2Proof.Machine
end

