-- ==== Sys2Proof/Machine/Flags.lean ====
section
/-! DEFINITION. The hardware has no flags (spec/10_state.md R19). Its one condition, and the two arithmetic results
(spec/42_memory_reference.md R125) as exact integers; the register write masks them. -/

namespace Sys2Proof.Machine

/-- The condition of JUMP_IF_ZERO: all 8 bits of AC are zero (R19, R131). -/
def accumulatorIsZero (s : State) : Bool := s.ac == 0

/-- The exact sum of two unsigned words, before masking (R121, R125). -/
def exactSum (x y : Byte) : Int := (x.toNat : Int) + (y.toNat : Int)

/-- The exact difference of two unsigned words, before masking (R122, R125). -/
def exactDifference (x y : Byte) : Int := (x.toNat : Int) - (y.toNat : Int)

end Sys2Proof.Machine
end

