-- ==== Sys2Proof/Machine/Memory.lean ====
section
/-! DEFINITION. The word memory (spec/20_memory.md section 1) as a list of cells in one canonical form. -/

namespace Sys2Proof.Machine

/-- The canonical form: addresses strictly rising, all of them in 0..15 (R30). An unlisted address has no value
(`Memory.unlisted`), so no entry equals what an unlisted address reads as. -/
abbrev Memory.wf (m : Memory) : Prop :=
  m.Pairwise (fun c d => c.1 < d.1) ∧ ∀ c ∈ m, c.1 < memorySize

/-- What an unlisted address reads as: no value (R162: INIT_MEM is unspecified and a model gives it no value;
DESIGN CHOICE, assumption 3). -/
def Memory.unlisted : Option Byte := none

/-- `M[a]` (R31). -/
def Memory.read : Memory → Nat → Option Byte
  | [], _ => Memory.unlisted
  | (a, v) :: m, x => if a = x then some v else Memory.read m x

/-- `M[a] <- v` (R32), in canonical form. -/
def Memory.write : Memory → Nat → Byte → Memory
  | [], x, v => [(x, v)]
  | (a, w) :: m, x, v =>
    if x < a then (x, v) :: (a, w) :: m
    else if x = a then (x, v) :: m
    else (a, w) :: Memory.write m x v

/-- Every address of the address space has a value, as after a load (R34, R163). -/
def Memory.loaded (m : Memory) : Prop := ∀ a : Addr, (m.read a.toNat).isSome

/-- The memory that holds a given word at every address. -/
def Memory.ofImage (image : Addr → Byte) : Memory :=
  (List.range memorySize).map (fun a => (a, image (BitVec.ofNat 4 a)))

/-- The power-on state for a given INIT_MEM (R5, R25, R162). -/
def State.powerOn (initMem : Addr → Byte) : State :=
  { State.reset with mem := Memory.ofImage initMem }

end Sys2Proof.Machine
end

