-- ==== Sys2Proof/Machine/Ops.lean ====
section
/-! DEFINITION. The named operations over registers and memory. The hardware has no trap entry and no return from one
(spec/60_exceptions.md R140, R145, R146); entering Halted is the nearest thing and is `enterHalted`. -/

namespace Sys2Proof.Machine

/-- PC <- v, masked to 4 bits (R11). -/
def State.setPc (s : State) (v : Int) : State := { s with pc := mask 4 v }

/-- IR <- v (R13). -/
def State.setIr (s : State) (v : Byte) : State := { s with ir := v }

/-- AC <- v, masked to 8 bits (R14). -/
def State.setAc (s : State) (v : Int) : State := { s with ac := mask 8 v }

/-- PHASE <- p (R17). -/
def State.setPhase (s : State) (p : Phase) : State := { s with phase := p }

/-- M <- m (R21). -/
def State.setMem (s : State) (m : Memory) : State := { s with mem := m }

/-- The value the event returns to the host (R24). -/
def State.respond (s : State) (r : Response) : State := { s with response := r }

/-- The events still to be performed. -/
def State.setInputs (s : State) (es : List HostEvent) : State := { s with inputs := es }

/-- The registers as reset and load leave them (R160, R163): neither event returns a status. -/
def State.clearRegisters (s : State) : State :=
  { s with pc := 0, ir := 0, ac := 0, phase := .fetch, response := .none }

/-- `MemRead(a, 1)` (R31), its value passed on: outside 0..15 is OutOfRange (R33), and a word that was never given a
value is refused (R166). -/
def readThen (s : State) (a : Nat) (k : Byte → Result) : Result :=
  if memorySize ≤ a then .fault (.outOfRange a)
  else
    match s.mem.read a with
    | some v => k v
    | none => .refused (.unloadedMemory a)

/-- `MemWrite(a, 1, v)` (R32): the value is masked to 8 bits; outside 0..15 is OutOfRange (R33). -/
def writeThen (s : State) (a : Nat) (v : Int) (k : State → Result) : Result :=
  if memorySize ≤ a then .fault (.outOfRange a) else k (s.setMem (s.mem.write a (mask 8 v)))

/-- The end of an instruction that does not halt: PHASE <- Fetch (R105). -/
def endInstr (s : State) : Result := .next (s.setPhase .fetch)

/-- PHASE <- Halted and nothing else: HALT (R132) and the fail-stop (R134, R145), which saves nothing. -/
def enterHalted (s : State) : Result := .next (s.setPhase .halted)

end Sys2Proof.Machine
end

