-- ==== Sys2Proof/Machine/Operands.lean ====
section
/-! DEFINITION. The operand forms: the absolute address of TOY8 (spec/30_encoding.md R52) and the two forms of the LC3D
second operand (R57). -/

namespace Sys2Proof.Machine

/-- The effective address of LOAD, ADD, SUB and STORE, and the target of the jumps: the operand field zero-extended, with
no base, index or scaling (R52). -/
def effectiveAddress (operand : Addr) : Nat := operand.toNat

/-- The immediate operand an LC3D operand shows (R57): present only when mode = 1. -/
def immediateOf : Lc3Operand → Option Int
  | .imm v => some (sext 5 (mask 5 v).toNat)
  | .raw _ => none

/-- The outputs of the LC3D unit for an opcode number and its other fields (R88). -/
def lc3dOutputs (op : Opcode) (dr sr1 : RegNum) (src : Lc3Operand) : Lc3dOutputs where
  opcode := op
  dr := dr
  sr1 := sr1
  mode := src.mode
  imm5 := src.imm5
  imm := immediateOf src

/-- The immediate as a 16-bit pattern, bit 4 of imm5 copied into bits 15..5 (R57). -/
def Lc3dOutputs.imm16 (o : Lc3dOutputs) : Option Lc3Word := o.imm.map (mask 16)

/-- The name of an LC3D opcode number: only 1 = ADD has one (R58, R89). -/
def lc3dName (op : Opcode) : Option String := if op = 1 then some "ADD" else none

/-- The name of the word whose outputs are shown, if it has one (R89). -/
def Lc3dOutputs.name (o : Lc3dOutputs) : Option String := lc3dName o.opcode

end Sys2Proof.Machine
end

