-- ==== Sys2Proof/Machine/ControlTransfer.lean ====
section
/-! DEFINITION. JUMP, JUMP_IF_ZERO, HALT and the unassigned opcodes (spec/43_control_transfer.md). -/

namespace Sys2Proof.Machine

/-- JUMP (R130). -/
def execJump (a : Addr) (s : State) : Result := endInstr (s.setPc (effectiveAddress a))

/-- JUMP_IF_ZERO (R131): PC is written in this step when AC is zero (conflict C9). -/
def execJumpIfZero (a : Addr) (s : State) : Result :=
  endInstr (if accumulatorIsZero s then s.setPc (effectiveAddress a) else s)

/-- HALT (R132); the operand bits are ignored (R55). -/
def execHalt (_operand : Addr) (s : State) : Result := enterHalted s

/-- The fail-stop on an unassigned opcode (R134), first of the nine (R54). -/
def execUnassigned7 (_operand : Addr) (s : State) : Result := enterHalted s

/-- The fail-stop (R134). -/
def execUnassigned8 (_operand : Addr) (s : State) : Result := enterHalted s

/-- The fail-stop (R134). -/
def execUnassigned9 (_operand : Addr) (s : State) : Result := enterHalted s

/-- The fail-stop (R134). -/
def execUnassigned10 (_operand : Addr) (s : State) : Result := enterHalted s

/-- The fail-stop (R134). -/
def execUnassigned11 (_operand : Addr) (s : State) : Result := enterHalted s

/-- The fail-stop (R134). -/
def execUnassigned12 (_operand : Addr) (s : State) : Result := enterHalted s

/-- The fail-stop (R134). -/
def execUnassigned13 (_operand : Addr) (s : State) : Result := enterHalted s

/-- The fail-stop (R134). -/
def execUnassigned14 (_operand : Addr) (s : State) : Result := enterHalted s

/-- The fail-stop (R134). -/
def execUnassigned15 (_operand : Addr) (s : State) : Result := enterHalted s

end Sys2Proof.Machine
end

