-- ==== Sys2Proof/Machine/Lc3d.lean ====
section
/-! DEFINITION. The LC3D decode unit (spec/40_codec_and_lc3_decode.md R88, R89): each of its sixteen rows shows the fields
of the word on the unit's outputs. No state is read or written (R23, R88); nothing is executed (R89; assumption 7). -/

namespace Sys2Proof.Machine

/-- The unit shows its outputs; the core's registers and memory are untouched (R88). -/
def showOutputs (s : State) (o : Lc3dOutputs) : Result := .next (s.respond (.lc3d o))

/-- LC3D opcode 0, unnamed (R58, R88). -/
def execLc3dOp0 (dr sr1 : RegNum) (src : Lc3Operand) (s : State) : Result :=
  showOutputs s (lc3dOutputs 0 dr sr1 src)

/-- LC3D.ADD (R89): the outputs of an ADD word; the sum is not computed. -/
def execLc3dAdd (dr sr1 : RegNum) (src : Lc3Operand) (s : State) : Result :=
  showOutputs s (lc3dOutputs 1 dr sr1 src)

/-- LC3D opcode 2, unnamed (R58, R88). -/
def execLc3dOp2 (dr sr1 : RegNum) (src : Lc3Operand) (s : State) : Result :=
  showOutputs s (lc3dOutputs 2 dr sr1 src)

/-- LC3D opcode 3, unnamed (R58, R88). -/
def execLc3dOp3 (dr sr1 : RegNum) (src : Lc3Operand) (s : State) : Result :=
  showOutputs s (lc3dOutputs 3 dr sr1 src)

/-- LC3D opcode 4, unnamed (R58, R88). -/
def execLc3dOp4 (dr sr1 : RegNum) (src : Lc3Operand) (s : State) : Result :=
  showOutputs s (lc3dOutputs 4 dr sr1 src)

/-- LC3D opcode 5, unnamed (R58, R88). -/
def execLc3dOp5 (dr sr1 : RegNum) (src : Lc3Operand) (s : State) : Result :=
  showOutputs s (lc3dOutputs 5 dr sr1 src)

/-- LC3D opcode 6, unnamed (R58, R88). -/
def execLc3dOp6 (dr sr1 : RegNum) (src : Lc3Operand) (s : State) : Result :=
  showOutputs s (lc3dOutputs 6 dr sr1 src)

/-- LC3D opcode 7, unnamed (R58, R88). -/
def execLc3dOp7 (dr sr1 : RegNum) (src : Lc3Operand) (s : State) : Result :=
  showOutputs s (lc3dOutputs 7 dr sr1 src)

/-- LC3D opcode 8, unnamed (R58, R88). -/
def execLc3dOp8 (dr sr1 : RegNum) (src : Lc3Operand) (s : State) : Result :=
  showOutputs s (lc3dOutputs 8 dr sr1 src)

/-- LC3D opcode 9, unnamed (R58, R88). -/
def execLc3dOp9 (dr sr1 : RegNum) (src : Lc3Operand) (s : State) : Result :=
  showOutputs s (lc3dOutputs 9 dr sr1 src)

/-- LC3D opcode 10, unnamed (R58, R88). -/
def execLc3dOp10 (dr sr1 : RegNum) (src : Lc3Operand) (s : State) : Result :=
  showOutputs s (lc3dOutputs 10 dr sr1 src)

/-- LC3D opcode 11, unnamed (R58, R88). -/
def execLc3dOp11 (dr sr1 : RegNum) (src : Lc3Operand) (s : State) : Result :=
  showOutputs s (lc3dOutputs 11 dr sr1 src)

/-- LC3D opcode 12, unnamed (R58, R88). -/
def execLc3dOp12 (dr sr1 : RegNum) (src : Lc3Operand) (s : State) : Result :=
  showOutputs s (lc3dOutputs 12 dr sr1 src)

/-- LC3D opcode 13, unnamed (R58, R88). -/
def execLc3dOp13 (dr sr1 : RegNum) (src : Lc3Operand) (s : State) : Result :=
  showOutputs s (lc3dOutputs 13 dr sr1 src)

/-- LC3D opcode 14, unnamed (R58, R88). -/
def execLc3dOp14 (dr sr1 : RegNum) (src : Lc3Operand) (s : State) : Result :=
  showOutputs s (lc3dOutputs 14 dr sr1 src)

/-- LC3D opcode 15, unnamed (R58, R88). -/
def execLc3dOp15 (dr sr1 : RegNum) (src : Lc3Operand) (s : State) : Result :=
  showOutputs s (lc3dOutputs 15 dr sr1 src)

end Sys2Proof.Machine
end

