-- ==== Sys2Proof/Machine/MemoryReference.lean ====
section
/-! DEFINITION. LOAD, ADD, SUB and STORE (spec/42_memory_reference.md). -/

namespace Sys2Proof.Machine

/-- LOAD (R120). -/
def execLoad (a : Addr) (s : State) : Result :=
  readThen s (effectiveAddress a) fun v => endInstr (s.setAc v.toNat)

/-- ADD (R121): modulo 256, the carry is discarded (DESIGN CHOICE of the spec, D5; assumption 9). -/
def execAdd (a : Addr) (s : State) : Result :=
  readThen s (effectiveAddress a) fun v => endInstr (s.setAc (exactSum s.ac v))

/-- SUB (R122): AC is the minuend; modulo 256, the borrow is discarded (assumption 9). -/
def execSub (a : Addr) (s : State) : Result :=
  readThen s (effectiveAddress a) fun v => endInstr (s.setAc (exactDifference s.ac v))

/-- STORE (R123). -/
def execStore (a : Addr) (s : State) : Result :=
  writeThen s (effectiveAddress a) s.ac.toNat endInstr

end Sys2Proof.Machine
end

