-- ==== Sys2Proof/Machine/Dispatch.lean ====
section
/-! DEFINITION. The dispatch of an instruction to its meaning (spec/41_control_fsm.md R104 for TOY8,
spec/40_codec_and_lc3_decode.md R88 for LC3D). -/

namespace Sys2Proof.Machine

def exec (i : Instr) (s : State) : Host.Outcome State Fault Refusal :=
  match i with
  | .halt a => Sys2Proof.Machine.execHalt a s
  | .load a => Sys2Proof.Machine.execLoad a s
  | .add a => Sys2Proof.Machine.execAdd a s
  | .sub a => Sys2Proof.Machine.execSub a s
  | .store a => Sys2Proof.Machine.execStore a s
  | .jump a => Sys2Proof.Machine.execJump a s
  | .jumpIfZero a => Sys2Proof.Machine.execJumpIfZero a s
  | .unassigned7 a => Sys2Proof.Machine.execUnassigned7 a s
  | .unassigned8 a => Sys2Proof.Machine.execUnassigned8 a s
  | .unassigned9 a => Sys2Proof.Machine.execUnassigned9 a s
  | .unassigned10 a => Sys2Proof.Machine.execUnassigned10 a s
  | .unassigned11 a => Sys2Proof.Machine.execUnassigned11 a s
  | .unassigned12 a => Sys2Proof.Machine.execUnassigned12 a s
  | .unassigned13 a => Sys2Proof.Machine.execUnassigned13 a s
  | .unassigned14 a => Sys2Proof.Machine.execUnassigned14 a s
  | .unassigned15 a => Sys2Proof.Machine.execUnassigned15 a s
  | .lc3dOp0 dr sr1 src => Sys2Proof.Machine.execLc3dOp0 dr sr1 src s
  | .lc3dAdd dr sr1 src => Sys2Proof.Machine.execLc3dAdd dr sr1 src s
  | .lc3dOp2 dr sr1 src => Sys2Proof.Machine.execLc3dOp2 dr sr1 src s
  | .lc3dOp3 dr sr1 src => Sys2Proof.Machine.execLc3dOp3 dr sr1 src s
  | .lc3dOp4 dr sr1 src => Sys2Proof.Machine.execLc3dOp4 dr sr1 src s
  | .lc3dOp5 dr sr1 src => Sys2Proof.Machine.execLc3dOp5 dr sr1 src s
  | .lc3dOp6 dr sr1 src => Sys2Proof.Machine.execLc3dOp6 dr sr1 src s
  | .lc3dOp7 dr sr1 src => Sys2Proof.Machine.execLc3dOp7 dr sr1 src s
  | .lc3dOp8 dr sr1 src => Sys2Proof.Machine.execLc3dOp8 dr sr1 src s
  | .lc3dOp9 dr sr1 src => Sys2Proof.Machine.execLc3dOp9 dr sr1 src s
  | .lc3dOp10 dr sr1 src => Sys2Proof.Machine.execLc3dOp10 dr sr1 src s
  | .lc3dOp11 dr sr1 src => Sys2Proof.Machine.execLc3dOp11 dr sr1 src s
  | .lc3dOp12 dr sr1 src => Sys2Proof.Machine.execLc3dOp12 dr sr1 src s
  | .lc3dOp13 dr sr1 src => Sys2Proof.Machine.execLc3dOp13 dr sr1 src s
  | .lc3dOp14 dr sr1 src => Sys2Proof.Machine.execLc3dOp14 dr sr1 src s
  | .lc3dOp15 dr sr1 src => Sys2Proof.Machine.execLc3dOp15 dr sr1 src s

end Sys2Proof.Machine
end

