-- ==== Sys2Proof/Machine/Phases.lean ====
section
/-! DEFINITION. The step event (spec/41_control_fsm.md): one phase per event. -/

namespace Sys2Proof.Machine

/-- Fetch (R102): both register writes use the PC before the step. -/
def fetchPhase (s : State) : Result :=
  readThen s s.pc.toNat fun w =>
    .next ((((s.setIr w).setPc (s.pc.toNat + 1)).setPhase .decode).respond (.status .ok))

/-- Decode (R103): only PHASE changes. -/
def decodePhase (s : State) : Result := .next ((s.setPhase .execute).respond (.status .ok))

/-- Execute (R104): the instruction in IR, never the memory word at its address; the status is Ok in every case. -/
def executePhase (P : Params) (s : State) : Result := exec (decodeToy8 P s.ir) (s.respond (.status .ok))

/-- Halted (R107): no state change, and the status AlreadyHalted. -/
def haltedPhase (s : State) : Result := .next (s.respond (.status .alreadyHalted))

/-- The step event (R100, R108). -/
def stepEvent (P : Params) (s : State) : Result :=
  match s.phase with
  | .fetch => fetchPhase s
  | .decode => decodePhase s
  | .execute => executePhase P s
  | .halted => haltedPhase s

end Sys2Proof.Machine
end

