-- ==== Sys2Proof/Machine/HostEvents.lean ====
section
/-! DEFINITION. The host's events and what it can read (spec/70_reset_and_hazards.md R160 to R165, R177 to R179;
spec/60_exceptions.md R144). -/

namespace Sys2Proof.Machine

/-- The reset event (R160): the registers are cleared, memory is unchanged (R161). -/
def resetEvent (s : State) : State := s.clearRegisters

/-- The load event (R163, R34): the whole memory is replaced and the registers are cleared; a list of more than 16 words
is refused (decision D26; assumption 15). -/
def loadEvent (P : Params) (words : List Int) (s : State) : Result :=
  if loadListWf words then .next (s.clearRegisters.setMem (Memory.ofImage (imageWord P words)))
  else .refused (.imageTooLong words.length)

/-- Assembly followed by the load of its image (R71, R164). -/
def assembleEvent (P : Params) (source : List (List Char)) (s : State) : Result :=
  loadEvent P ((assemble P source).map fun w : Byte => (w.toNat : Int)) s

/-- One host event, performed to completion (R165, R179). A word presented to the LC3D unit runs the row it decodes to
(R88; assumption 7). -/
def perform (P : Params) (e : HostEvent) (s : State) : Result :=
  match e with
  | .reset => .next (resetEvent s)
  | .load words => loadEvent P words s
  | .assemble source => assembleEvent P source s
  | .step => stepEvent P s
  | .decode w => exec (decodeLc3d w) s

/-- The event the machine performs next: the oldest one queued, or else a step event (assumption 5). -/
def nextEvent (s : State) : HostEvent := s.inputs.headD .step

/-- The machine's step: perform the next event, which leaves the queue. -/
def stepWith (P : Params) (s : State) : Result := perform P (nextEvent s) (s.setInputs s.inputs.tail)

/-- `n` steps, stopping at the first fault or refusal. -/
def runWith (P : Params) : Nat → State → Result
  | 0, s => .next s
  | n + 1, s =>
    match stepWith P s with
    | .next t => runWith P n t
    | .fault r => .fault r
    | .refused r => .refused r

/-- The event inputs of one clock of a realisation (R165). -/
structure ClockInputs where
  reset : Bool
  load  : Option (List Int)
  step  : Bool
  deriving DecidableEq, Repr

/-- The event a clock performs: reset, then load, then step (R144, decision D2; assumption 16). -/
def ClockInputs.event (c : ClockInputs) : Option HostEvent :=
  if c.reset then some .reset
  else
    match c.load with
    | some words => some (.load words)
    | none => if c.step then some .step else none

/-- One clock: the event it performs, or else the core holds its state (R144, R153, R165). -/
def clock (P : Params) (c : ClockInputs) (s : State) : Result :=
  match c.event with
  | some e => perform P e s
  | none => .next s

/-- The snapshot the host may read between events (R177); memory words without a value are not listed. -/
structure Snapshot where
  pc : Addr
  ac : Byte
  ir : Byte
  phase : Phase
  memoryContents : Memory
  deriving DecidableEq, Repr

/-- The snapshot of a state (R177). -/
def State.snapshot (s : State) : Snapshot where
  pc := s.pc
  ac := s.ac
  ir := s.ir
  phase := s.phase
  memoryContents := s.mem

/-- The result of a run: the snapshot when PHASE = Halted, and none while the run is not over (R178). -/
def State.runResult (s : State) : Option Snapshot :=
  if s.phase = .halted then some s.snapshot else none

end Sys2Proof.Machine
end

