-- ==== Sys2Proof/Machine/Launch.lean ====
section
/-! DEFINITION. Placing one instruction so that the very next step runs it (assumption 4). -/

namespace Sys2Proof.Machine

/-- Memory as a load leaves it where it has no value yet (R34, R166): words that have a value keep it. -/
def Memory.completed (P : Params) (m : Memory) : Memory :=
  Memory.ofImage fun a => (m.read a.toNat).getD (imageWord P [] a)

/-- A TOY8 word stored at PC in a loaded memory, with Fetch and Decode done, so that the next step event executes it:
IR holds the word, PC is one past it and PHASE is Execute (R102, R103, R109). -/
def placeToy8 (P : Params) (w : Byte) (s : State) : State :=
  { s with
    mem := (Memory.completed P s.mem).write s.pc.toNat w
    ir := w
    pc := mask 4 (s.pc.toNat + 1)
    phase := .execute
    inputs := .step :: s.inputs }

/-- A word presented to the LC3D unit as the next event (R88). -/
def placeLc3d (w : Lc3Word) (s : State) : State := { s with inputs := .decode w :: s.inputs }

/-- The word of a table row, by its width: 8 bits are TOY8, otherwise LC3D. -/
def placeWord (P : Params) (nbits w : Nat) (s : State) : State :=
  if nbits ≤ 8 then placeToy8 P (BitVec.ofNat 8 w) s else placeLc3d (BitVec.ofNat 16 w) s

end Sys2Proof.Machine
end

