-- ==== Sys2Proof/Machine/Step.lean ====
section
/-! DEFINITION. One step of the machine with the default parameters: one host event, and a step event is one phase
(spec/41_control_fsm.md R100; assumptions 1, 5 and 10). -/

namespace Sys2Proof.Machine

/-- One event (R165). -/
def step (s : State) : Host.Outcome State Fault Refusal := stepWith Params.default s

/-- The state in which the very next step runs the instruction whose bits are `w` (assumption 4). -/
def State.withFetchWord (s : State) (nbits w : Nat) : State := placeWord Params.default nbits w s

end Sys2Proof.Machine
end

