-- ==== Sys2Proof/Machine/MemoryPort.lean ====
section
/-! DEFINITION. The memory interface of the core as the port of a realisation shows it (spec/20_memory.md R35): the one
access a step event makes. -/

namespace Sys2Proof.Machine

/-- The access of one step event: none, a read of one word, or a write of one word. -/
inductive MemoryAccess
  | none
  | read (a : Addr)
  | write (a : Addr) (v : Byte)
  deriving DecidableEq, Repr

/-- The access of an instruction's Execute step (R35). -/
def instrAccess (i : Instr) (s : State) : MemoryAccess :=
  match i with
  | .load a | .add a | .sub a => .read a
  | .store a => .write a s.ac
  | .jump _ | .jumpIfZero _ | .halt _ => .none
  | .unassigned7 _ | .unassigned8 _ | .unassigned9 _ | .unassigned10 _ | .unassigned11 _ => .none
  | .unassigned12 _ | .unassigned13 _ | .unassigned14 _ | .unassigned15 _ => .none
  | .lc3dOp0 _ _ _ | .lc3dAdd _ _ _ | .lc3dOp2 _ _ _ | .lc3dOp3 _ _ _ | .lc3dOp4 _ _ _ => .none
  | .lc3dOp5 _ _ _ | .lc3dOp6 _ _ _ | .lc3dOp7 _ _ _ | .lc3dOp8 _ _ _ | .lc3dOp9 _ _ _ => .none
  | .lc3dOp10 _ _ _ | .lc3dOp11 _ _ _ | .lc3dOp12 _ _ _ | .lc3dOp13 _ _ _ => .none
  | .lc3dOp14 _ _ _ | .lc3dOp15 _ _ _ => .none

/-- The access of a step event (R35): Fetch reads the word at PC, Decode and Halted make none. -/
def stepAccess (P : Params) (s : State) : MemoryAccess :=
  match s.phase with
  | .fetch => .read s.pc
  | .decode => .none
  | .execute => instrAccess (decodeToy8 P s.ir) s
  | .halted => .none

end Sys2Proof.Machine
end

