-- ==== Sys2Proof/Machine/Runner.lean ====
section
/-! DEFINITION. The Cycle Runner (spec/70_reset_and_hazards.md R172 to R176): host software that issues step events. Its
cadence is host configuration, not hardware state (R175), so it stands beside the core and not in it. -/

namespace Sys2Proof.Machine

/-- A session: one core and at most one continuous run, held as its interval (R151, R176). -/
structure Session where
  core : State
  run  : Option Nat
  deriving DecidableEq, Repr

/-- The outcome of an operation on a session. -/
abbrev SessionResult := Host.Outcome Session Fault Refusal

/-- A session whose core has taken an event. -/
def Session.withCore (S : Session) (r : Result) : SessionResult :=
  match r with
  | .next s => .next { S with core := s }
  | .fault f => .fault f
  | .refused f => .refused f

/-- runStep (R172): exactly one step event. -/
def Session.runStep (P : Params) (S : Session) : SessionResult := S.withCore (stepEvent P S.core)

/-- runContinuous (R173): a run already active is replaced, so there is one runner (R176). -/
def Session.runContinuous (interval : Nat) (S : Session) : Session := { S with run := some interval }

/-- cancel (R174): no hardware state changes. -/
def Session.cancel (S : Session) : Session := { S with run := none }

/-- setSpeed (R175): the cadence of an active run; without one there is nothing to change (assumption 17). -/
def Session.setSpeed (interval : Nat) (S : Session) : Session :=
  { S with run := S.run.map fun _ => interval }

/-- A run whose core has reached Halted is over (R173). -/
def Session.settle (S : Session) : Session :=
  if S.core.phase = .halted then S.cancel else S

/-- One tick of the timer (R173): an active run issues one step event unless the core is halted, and ends when it is. -/
def Session.tick (P : Params) (S : Session) : SessionResult :=
  if S.run = none then .next S
  else if S.core.phase = .halted then .next S.cancel
  else
    match S.runStep P with
    | .next T => .next T.settle
    | .fault r => .fault r
    | .refused r => .refused r

/-- `n` ticks. -/
def Session.ticks (P : Params) : Nat → Session → SessionResult
  | 0, S => .next S
  | n + 1, S =>
    match S.tick P with
    | .next T => Session.ticks P n T
    | .fault r => .fault r
    | .refused r => .refused r

/-- Re-assembly cancels an active run first (R71, R176). -/
def Session.assemble (P : Params) (source : List (List Char)) (S : Session) : SessionResult :=
  S.cancel.withCore (assembleEvent P source S.core)

/-- Reset of the core; the runner is not concerned (R160, R179). -/
def Session.reset (S : Session) : Session := { S with core := resetEvent S.core }

end Sys2Proof.Machine
end

