-- ==== Sys2Proof/Safety.lean ====
section
/-! DEFINITION. What claims mean by a safe state and a normal end (spec/70_reset_and_hazards.md R166, R178,
spec/43_control_transfer.md R134). -/

namespace Sys2Proof.Machine

/-- Memory is in canonical form: the invariant of every step. -/
def MemoryCanonical (s : State) : Prop := s.mem.wf

/-- Every memory word has a value, as after a load (R166). -/
def Loaded (s : State) : Prop := s.mem.loaded

/-- The machine halted by HALT: `IR[7:4]` is the opcode of HALT (R20, R178). -/
def HaltedNormally (P : Params) (s : State) : Prop :=
  s.phase = .halted ∧ opcodeOf s.ir = P.opc .halt

/-- The machine halted by the fail-stop: `IR[7:4]` is no mnemonic's opcode (R20, R134, R178). -/
def FailStopped (P : Params) (s : State) : Prop :=
  s.phase = .halted ∧ ∀ m : Mnemonic, opcodeOf s.ir ≠ P.opc m

/-- A safe state: loaded, canonical, and not fail-stopped. -/
def Safe (P : Params) (s : State) : Prop := Loaded s ∧ MemoryCanonical s ∧ ¬ FailStopped P s

end Sys2Proof.Machine
end

