-- ==== Sys2Proof/Certificates/Slice0/Obligations.lean ====
section
/-! DEFINITION. The statements for the provers, in the order of the spec's files. `P` ranges over the open parameters of
R5 and `P.wf` says OPC is injective, so a statement holds for every OPC, DATA_BASE and DATA_SEED; memory is any memory, so
it holds for every INIT_MEM. -/

open Sys2Proof Sys2Proof.Machine

/-! ### Bit-field functions -/

/-- R80, R81: extractField gives the bits lo..hi of a word right-aligned, as a number and bit by bit; a word of 2^W or more
is masked first, and a reversed or out-of-word range has no result (decision D17, assumption 12). -/
def Obligations.ExtractFieldReadsBits : Prop :=
  ∀ W w hi lo : Nat,
    (w < 2 ^ W → lo ≤ hi → hi < W →
      ∃ r, extractField W w hi lo = some r ∧ r = w / 2 ^ lo % 2 ^ (hi - lo + 1) ∧ r < 2 ^ (hi - lo + 1) ∧
        ∀ i, r.testBit i = (decide (i ≤ hi - lo) && w.testBit (lo + i))) ∧
    (extractField W w hi lo = none ↔ hi < lo ∨ W ≤ hi) ∧
    extractField W w hi lo = extractField W (w % 2 ^ W) hi lo

/-- R82: the result of signExtend is the integer of the signed range congruent to the value; on a wider datapath it is the
low bits with the sign bit replicated. That a wider value is masked and width 0 has no result is the spec's decision D17
(assumption 12). -/
def Obligations.SignExtendIsSignedValue : Prop :=
  ∀ (value : Int) (width : Nat),
    (width = 0 → signExtend value width = none) ∧
    (1 ≤ width → ∃ r, signExtend value width = some r ∧
      -((2 ^ (width - 1) : Nat) : Int) ≤ r ∧ r < ((2 ^ (width - 1) : Nat) : Int) ∧
      r % ((2 ^ width : Nat) : Int) = value % ((2 ^ width : Nat) : Int) ∧
      ∀ K, width < K → ∀ j, j < K →
        (maskNat K r).testBit j = (maskNat width value).testBit (min j (width - 1)))

/-- R83: the laws of signExtend, its consequences and its examples. -/
def Obligations.SignExtendLaws : Prop :=
  (∀ W v : Nat, 1 ≤ W → v < 2 ^ W →
    (v.testBit (W - 1) = false → signExtend v W = some (v : Int)) ∧
    (v.testBit (W - 1) = true → signExtend v W = some ((v : Int) - ((2 ^ W : Nat) : Int))) ∧
    (∀ r, signExtend v W = some r → maskNat W r = v)) ∧
  (∀ W : Nat, 1 ≤ W →
    signExtend ((2 ^ W - 1 : Nat) : Int) W = some (-1) ∧
    signExtend ((2 ^ (W - 1) : Nat) : Int) W = some (-((2 ^ (W - 1) : Nat) : Int))) ∧
  signExtend 5 5 = some 5 ∧ signExtend 15 5 = some 15 ∧ signExtend 16 5 = some (-16) ∧
  signExtend 27 5 = some (-5) ∧ signExtend 31 5 = some (-1)

/-- R84, R85 (decision D16, assumption 12): each field is masked to its own width and packed below the ones before it, so
while the widths fit in W the first field stands above all the later ones, which lie right-aligned, and the upper bits are
zero; when the widths after the first field already sum to W or more the first field is lost. -/
def Obligations.ComposeWordMasksFields : Prop :=
  ∀ (W : Nat) (fields : List (Int × Nat)),
    composeWord W fields = composeWord W (fields.map fun f : Int × Nat => ((maskNat f.2 f.1 : Int), f.2)) ∧
    composeWord W fields < 2 ^ W ∧
    composeWord W fields < 2 ^ (fields.map Prod.snd).sum ∧
    composeWord W [] = 0 ∧
    ∀ f : Int × Nat,
      composeWord W (fields ++ [f]) = (composeWord W fields * 2 ^ f.2 + maskNat f.2 f.1) % 2 ^ W ∧
      (f.2 + (fields.map Prod.snd).sum ≤ W →
        composeWord W (f :: fields) = maskNat f.2 f.1 * 2 ^ (fields.map Prod.snd).sum + composeWord W fields) ∧
      (W ≤ (fields.map Prod.snd).sum → composeWord W (f :: fields) = composeWord W fields)

/-- R86: composing the fields extracted from a word gives the word, and extracting the fields of a composed word gives the
field values, for every layout that covers the word. A field of a layout has at least one bit, since a range `hi:lo` has
`hi >= lo` (R6). -/
def Obligations.ComposeDecomposeRoundTrip : Prop :=
  ∀ (W : Nat) (layout : List Nat), (∀ n ∈ layout, 0 < n) → layout.sum = W →
    (∀ w : Nat, w < 2 ^ W → ∃ fs, decompose W w layout = some fs ∧ fs.length = layout.length ∧
      composeWord W ((fs.map fun f : Nat => (f : Int)).zip layout) = w) ∧
    (∀ fs : List Nat, fs.length = layout.length → (∀ c ∈ fs.zip layout, c.1 < 2 ^ c.2) →
      decompose W (composeWord W ((fs.map fun f : Nat => (f : Int)).zip layout)) layout = some fs)

/-! ### Encoding -/

/-- R51: opcode = bits 7..4 and operand = bits 3..0, the word is opcode * 16 + operand, and decode and encode of the two
fields are mutually inverse. -/
def Obligations.Toy8FieldsRoundTrip : Prop :=
  (∀ w : Byte, opcodeOf w = w.extractLsb' 4 4 ∧ operandOf w = w.extractLsb' 0 4 ∧
    toy8Word (opcodeOf w) (operandOf w).toNat = w) ∧
  (∀ (op : Opcode) (a : Addr), (toy8Word op a.toNat).toNat = op.toNat * 16 + a.toNat ∧
    opcodeOf (toy8Word op a.toNat) = op ∧ operandOf (toy8Word op a.toNat) = a) ∧
  (∀ (op : Opcode) (d : Int), toy8Word op d = toy8Word op (maskNat 4 d))

/-- R53: the seven instructions are encoded as their opcode number followed by the operand, whatever the numbers OPC gives
(decision D3, assumption 1). -/
def Obligations.Toy8EncodingIsOpcodeThenOperand : Prop :=
  ∀ (P : Params) (m : Mnemonic) (a : Addr),
    encodeWith P (Instr.ofMnemonic m a) = .toy8 (P.opc m ++ a) ∧
    (P.wf → decodeToy8 P (P.opc m ++ a) = Instr.ofMnemonic m a)

/-- R51, R86, R90: decoding the word of a well-formed instruction gives the instruction back, for every instruction of both
formats and every injective OPC. -/
def Obligations.DecodeEncodeRoundTrip : Prop :=
  ∀ (P : Params) (i : Instr), P.wf → i.wf → decodeWith P (encodeWith P i) = i

/-- R51, R86, R90, R57: encoding what a word decodes to gives the word back, for every word of both formats, so no two
words decode to one instruction; and what a word decodes to is well formed, its LC3D immediates in -16..15. -/
def Obligations.EncodeDecodeRoundTrip : Prop :=
  ∀ (P : Params) (c : CodeWord), P.wf → encodeWith P (decodeWith P c) = c ∧ (decodeWith P c).wf

/-- R54: nine opcode numbers are unassigned, and the 256 words split into 112 that decode to one of the seven instructions
and 144 that do not. -/
def Obligations.WordsSplitInto112And144 : Prop :=
  ∀ P : Params, P.wf →
    P.unassigned.length = 9 ∧
    ((List.range 256).filter fun n => P.assigned (opcodeOf (BitVec.ofNat 8 n))).length = 112 ∧
    ((List.range 256).filter fun n => !P.assigned (opcodeOf (BitVec.ofNat 8 n))).length = 144

/-- R53, R56: words written out from the tables of 30_encoding.md (default OPC, decision D3, assumption 1) decode to the
instructions they stand for; that a word of 12 bits is rejected is the model's choice (assumption 20). -/
def Obligations.WrittenWordsDecode : Prop :=
  decodeTableWord 8 0b00000101 = some (.halt 5) ∧
  decodeTableWord 8 0b00011110 = some (.load 14) ∧
  decodeTableWord 8 0b01001101 = some (.store 13) ∧
  decodeTableWord 8 0b01101010 = some (.jumpIfZero 10) ∧
  decodeTableWord 8 0b01110000 = some (.unassigned7 0) ∧
  decodeTableWord 16 0b0001010001100101 = some (.lc3dAdd 2 1 (.imm 5)) ∧
  decodeTableWord 16 0b0001000001000010 = some (.lc3dAdd 0 1 (.raw 2)) ∧
  decodeTableWord 12 0 = none

/-! ### Memory -/

/-- R31, R32: a write changes the word at its address and no other, and keeps the canonical form (the model's own,
assumption 3). -/
def Obligations.MemoryReadAfterWrite : Prop :=
  ∀ (m : Memory) (a : Addr) (v : Byte),
    (∀ x : Nat, (m.write a.toNat v).read x = if x = a.toNat then some v else m.read x) ∧
    (m.wf → (m.write a.toNat v).wf)

/-- The canonical form of memory (the model's own, assumption 3) is canonical: memories that read alike are equal data. -/
def Obligations.EqualReadsMakeEqualMemories : Prop :=
  ∀ m n : Memory, m.wf → n.wf → (∀ a : Addr, m.read a.toNat = n.read a.toNat) → m = n

/-- R35: a step event touches memory only through its one access: a write changes that word and no other, otherwise memory
is unchanged; and the outcome depends on no word but the one read. -/
def Obligations.OneAccessPerStep : Prop :=
  ∀ (P : Params) (s t : State), P.wf → stepEvent P s = .next t →
    (∀ x : Nat, t.mem.read x =
      match stepAccess P s with
      | .write a v => if x = a.toNat then some v else s.mem.read x
      | _ => s.mem.read x) ∧
    ∀ m : Memory,
      (∀ a, stepAccess P s = .read a → m.read a.toNat = s.mem.read a.toNat) →
      ∃ u, stepEvent P { s with mem := m } = .next u ∧
        u.pc = t.pc ∧ u.ir = t.ir ∧ u.ac = t.ac ∧ u.phase = t.phase ∧ u.response = t.response

/-- R21: only the Execute step of STORE, a load and an assembly change memory. -/
def Obligations.OnlyStoreAndLoadWriteMemory : Prop :=
  ∀ (P : Params) (s t : State), P.wf → stepWith P s = .next t → t.mem ≠ s.mem →
    (nextEvent s = .step ∧ s.phase = .execute ∧ opcodeOf s.ir = P.opc .store) ∨
    (∃ words, nextEvent s = .load words) ∨ (∃ source, nextEvent s = .assemble source)

/-- R43: a STORE to the address in PC is what the very next Fetch reads into IR. -/
def Obligations.StoreIsSeenByNextFetch : Prop :=
  ∀ (P : Params) (s : State), P.wf → s.phase = .execute → s.inputs = [] → opcodeOf s.ir = P.opc .store →
    operandOf s.ir = s.pc →
    ∃ t, runWith P 2 s = .next t ∧ t.ir = s.ac ∧ t.pc = s.pc + 1 ∧ t.phase = .decode ∧ t.ac = s.ac

/-! ### Memory-reference instructions -/

/-- R120: LOAD, its encoding and its result; nothing else changes. -/
def Obligations.LoadResult : Prop :=
  (∀ (P : Params) (a : Addr), encodeWith P (.load a) = .toy8 (P.opc .load ++ a)) ∧
  ∀ (s : State) (a : Addr) (v : Byte), s.mem.read a.toNat = some v →
    exec (.load a) s = .next { s with ac := v, phase := .fetch }

/-- R121: ADD, its encoding and its result modulo 256 (the wrap is the spec's decision D5, assumption 9); nothing else
changes. -/
def Obligations.AddResult : Prop :=
  (∀ (P : Params) (a : Addr), encodeWith P (.add a) = .toy8 (P.opc .add ++ a)) ∧
  ∀ (s : State) (a : Addr) (v : Byte), s.mem.read a.toNat = some v →
    exec (.add a) s = .next { s with ac := s.ac + v, phase := .fetch }

/-- R122: SUB, its encoding and its result modulo 256, AC the minuend (the wrap is the spec's decision D5, assumption 9);
nothing else changes. -/
def Obligations.SubResult : Prop :=
  (∀ (P : Params) (a : Addr), encodeWith P (.sub a) = .toy8 (P.opc .sub ++ a)) ∧
  ∀ (s : State) (a : Addr) (v : Byte), s.mem.read a.toNat = some v →
    exec (.sub a) s = .next { s with ac := s.ac - v, phase := .fetch }

/-- R123: STORE, its encoding and its result; the stored word is at the operand address, every other word and every other
register is unchanged. -/
def Obligations.StoreResult : Prop :=
  (∀ (P : Params) (a : Addr), encodeWith P (.store a) = .toy8 (P.opc .store ++ a)) ∧
  ∀ (s : State) (a : Addr),
    exec (.store a) s = .next { s with mem := s.mem.write (effectiveAddress a) s.ac, phase := .fetch } ∧
    ∀ x : Nat, (s.mem.write (effectiveAddress a) s.ac).read x =
      if x = a.toNat then some s.ac else s.mem.read x

/-- R125, R15 (decision D5, assumption 9): the sum and the difference are modulo 256 for the unsigned reading and right in
two's complement for the signed reading. -/
def Obligations.ArithmeticIsRightForBothReadings : Prop :=
  ∀ (s t : State) (a : Addr) (v : Byte), s.mem.read a.toNat = some v →
    (exec (.add a) s = .next t →
      t.ac.toNat = (s.ac.toNat + v.toNat) % 256 ∧ sext 8 t.ac.toNat = sext 8 (sext 8 s.ac.toNat + sext 8 v.toNat)) ∧
    (exec (.sub a) s = .next t →
      (t.ac.toNat : Int) = ((s.ac.toNat : Int) - v.toNat) % 256 ∧
        sext 8 t.ac.toNat = sext 8 (sext 8 s.ac.toNat - sext 8 v.toNat))

/-- R166, D12 (the model's treatment of memory that was never loaded, assumption 3): the three reading instructions are
refused exactly when the word they read has no value. -/
def Obligations.UnloadedReadIsRefused : Prop :=
  ∀ (s : State) (a : Addr), s.mem.read a.toNat = none →
    exec (.load a) s = .refused (.unloadedMemory a.toNat) ∧
    exec (.add a) s = .refused (.unloadedMemory a.toNat) ∧
    exec (.sub a) s = .refused (.unloadedMemory a.toNat)

/-- R26: what exec of a TOY8 instruction leaves unchanged: IR always; AC but for LOAD, ADD, SUB; PC but for JUMP and
JUMP_IF_ZERO; every memory word but the one STORE addresses. -/
def Obligations.Toy8InstructionFrame : Prop :=
  ∀ (m : Mnemonic) (a : Addr) (s t : State), exec (Instr.ofMnemonic m a) s = .next t →
    t.ir = s.ir ∧ t.inputs = s.inputs ∧ t.response = s.response ∧
    (m ≠ .load → m ≠ .add → m ≠ .sub → t.ac = s.ac) ∧
    (m ≠ .jump → m ≠ .jumpIfZero → t.pc = s.pc) ∧
    (m ≠ .store → t.mem = s.mem) ∧
    (m = .store → ∀ x : Nat, x ≠ effectiveAddress a → t.mem.read x = s.mem.read x)

/-! ### Control transfer -/

/-- R130: JUMP, its encoding and its result. -/
def Obligations.JumpResult : Prop :=
  (∀ (P : Params) (a : Addr), encodeWith P (.jump a) = .toy8 (P.opc .jump ++ a)) ∧
  ∀ (s : State) (a : Addr), exec (.jump a) s = .next { s with pc := a, phase := .fetch }

/-- R131: JUMP_IF_ZERO, its encoding, and its result when AC is zero and when it is not. -/
def Obligations.JumpIfZeroResult : Prop :=
  (∀ (P : Params) (a : Addr), encodeWith P (.jumpIfZero a) = .toy8 (P.opc .jumpIfZero ++ a)) ∧
  ∀ (s : State) (a : Addr),
    (s.ac = 0 → exec (.jumpIfZero a) s = .next { s with pc := a, phase := .fetch }) ∧
    (s.ac ≠ 0 → exec (.jumpIfZero a) s = .next { s with phase := .fetch })

/-- R132: HALT with any operand bits (decision D31, assumption 21): only PHASE changes; the step that halts returns Ok and
the next one AlreadyHalted. -/
def Obligations.HaltResult : Prop :=
  (∀ (P : Params) (a : Addr), encodeWith P (.halt a) = .toy8 (P.opc .halt ++ a)) ∧
  (∀ (s : State) (a : Addr), exec (.halt a) s = .next { s with phase := .halted }) ∧
  ∀ (P : Params) (s : State), P.wf → s.phase = .execute → s.inputs = [] → opcodeOf s.ir = P.opc .halt →
    stepWith P s = .next { s with phase := .halted, response := .status .ok } ∧
    runWith P 2 s = .next { s with phase := .halted, response := .status .alreadyHalted }

/-- R134: an unassigned opcode fail-stops: only PHASE changes, as for HALT; each of the nine rows (assumptions 8, 21). -/
def Obligations.UnassignedOpcodeFailStops : Prop :=
  ∀ (s : State) (a : Addr),
    exec (.unassigned7 a) s = .next { s with phase := .halted } ∧
    exec (.unassigned8 a) s = .next { s with phase := .halted } ∧
    exec (.unassigned9 a) s = .next { s with phase := .halted } ∧
    exec (.unassigned10 a) s = .next { s with phase := .halted } ∧
    exec (.unassigned11 a) s = .next { s with phase := .halted } ∧
    exec (.unassigned12 a) s = .next { s with phase := .halted } ∧
    exec (.unassigned13 a) s = .next { s with phase := .halted } ∧
    exec (.unassigned14 a) s = .next { s with phase := .halted } ∧
    exec (.unassigned15 a) s = .next { s with phase := .halted }

/-- R134: an Execute step with an opcode outside the image of OPC halts, changes nothing else and returns Ok, whatever OPC
and the operand are; every later step event returns AlreadyHalted. -/
def Obligations.UnknownOpcodeStepFailStops : Prop :=
  ∀ (P : Params) (s : State), s.phase = .execute → (∀ m, opcodeOf s.ir ≠ P.opc m) →
    stepEvent P s = .next { s with phase := .halted, response := .status .ok } ∧
    (s.inputs = [] → ∀ n, runWith P (n + 2) s = .next { s with phase := .halted, response := .status .alreadyHalted })

/-- R130, R147: a JUMP to its own address never ends: after every three step events the machine is back where it was, and
no number of step events halts it. That an instruction takes three step events is decision D25 (assumption 10). -/
def Obligations.JumpToItselfNeverHalts : Prop :=
  ∀ (P : Params) (s : State) (w : Byte) (n : Nat), P.wf → s.phase = .fetch → s.inputs = [] →
    s.mem.read s.pc.toNat = some w → opcodeOf w = P.opc .jump → operandOf w = s.pc →
    (∃ t, runWith P (3 * n) s = .next t ∧ t.pc = s.pc ∧ t.phase = .fetch ∧ t.mem = s.mem ∧ t.ac = s.ac) ∧
    (∃ t, runWith P n s = .next t ∧ t.phase ≠ .halted)

/-! ### LC3D -/

/-- R88, R89: each of the sixteen LC3D rows shows its fields on the outputs and changes nothing else (that running a row
shows its outputs is the model's choice, assumption 7). -/
def Obligations.Lc3dRowsShowOutputs : Prop :=
  ∀ (s : State) (dr sr1 : RegNum) (src : Lc3Operand), src.wf →
    let imm : Option Int := match src with
      | .imm v => some v
      | .raw _ => none
    let out (op : Opcode) : Result :=
      .next { s with response := .lc3d ⟨op, dr, sr1, src.mode, src.imm5, imm⟩ }
    exec (.lc3dOp0 dr sr1 src) s = out 0 ∧ exec (.lc3dAdd dr sr1 src) s = out 1 ∧
    exec (.lc3dOp2 dr sr1 src) s = out 2 ∧ exec (.lc3dOp3 dr sr1 src) s = out 3 ∧
    exec (.lc3dOp4 dr sr1 src) s = out 4 ∧ exec (.lc3dOp5 dr sr1 src) s = out 5 ∧
    exec (.lc3dOp6 dr sr1 src) s = out 6 ∧ exec (.lc3dOp7 dr sr1 src) s = out 7 ∧
    exec (.lc3dOp8 dr sr1 src) s = out 8 ∧ exec (.lc3dOp9 dr sr1 src) s = out 9 ∧
    exec (.lc3dOp10 dr sr1 src) s = out 10 ∧ exec (.lc3dOp11 dr sr1 src) s = out 11 ∧
    exec (.lc3dOp12 dr sr1 src) s = out 12 ∧ exec (.lc3dOp13 dr sr1 src) s = out 13 ∧
    exec (.lc3dOp14 dr sr1 src) s = out 14 ∧ exec (.lc3dOp15 dr sr1 src) s = out 15

/-- R88: a word presented to the LC3D unit shows its bits 15..12, 11..9, 8..6, 5 and 4..0, and the sign-extended immediate
when bit 5 is 1 (decision D18; the presentation of a word is an event of the model, assumption 7); the core is
untouched. -/
def Obligations.Lc3dWordShowsItsFields : Prop :=
  ∀ (P : Params) (s : State) (w : Lc3Word),
    let out : Lc3dOutputs :=
      { opcode := w.extractLsb' 12 4, dr := w.extractLsb' 9 3, sr1 := w.extractLsb' 6 3, mode := w.extractLsb' 5 1,
        imm5 := w.extractLsb' 0 5, imm := if w.getLsbD 5 then some (w.extractLsb' 0 5).toInt else none }
    perform P (.decode w) s = .next { s with response := .lc3d out }

/-- R57, R58, R89: the immediate is absent when mode = 0; when mode = 1 it is in -16..15 and its 16-bit pattern is imm5
with bit 4 copied into bits 15..5; opcode 1 is named ADD and no other opcode has a name (decisions D18, D19, assumption
19). -/
def Obligations.Lc3dImmediateAndName : Prop :=
  ∀ (op : Opcode) (dr sr1 : RegNum) (src : Lc3Operand),
    ((lc3dOutputs op dr sr1 src).name = some "ADD" ↔ op = 1) ∧
    ((lc3dOutputs op dr sr1 src).name = none ↔ op ≠ 1) ∧
    ((lc3dOutputs op dr sr1 src).mode = 0 → (lc3dOutputs op dr sr1 src).imm = none) ∧
    ((lc3dOutputs op dr sr1 src).mode = 1 → ∃ v, (lc3dOutputs op dr sr1 src).imm = some v ∧ -16 ≤ v ∧ v ≤ 15 ∧
      v = (lc3dOutputs op dr sr1 src).imm5.toInt ∧
      (lc3dOutputs op dr sr1 src).imm16 = some ((lc3dOutputs op dr sr1 src).imm5.signExtend 16))

/-! ### The step event -/

/-- R102: the Fetch step: IR takes the word at the old PC, PC counts modulo 16, PHASE becomes Decode, the status is Ok and
nothing else changes. -/
def Obligations.FetchStep : Prop :=
  ∀ (P : Params) (s : State) (w : Byte), s.phase = .fetch → s.mem.read s.pc.toNat = some w →
    stepEvent P s = .next { s with ir := w, pc := s.pc + 1, phase := .decode, response := .status .ok }

/-- R104, R108: when IR holds the word of a well-formed TOY8 instruction, the step in Execute is exec of that instruction, with
status Ok; an event of the host that is queued is taken out of the queue (the queue is the model's own, assumption 5). -/
def Obligations.ExecuteStepRunsDecodedInstruction : Prop :=
  ∀ (P : Params) (s : State) (i : Instr), P.wf → s.phase = .execute → encodeWith P i = .toy8 s.ir →
    (s.inputs = [] → stepWith P s = exec i { s with response := .status .ok }) ∧
    (∀ es, s.inputs = .step :: es → stepWith P s = exec i { s with inputs := es, response := .status .ok })

/-- R106: from Fetch, three step events execute the instruction whose word is at PC, on a state whose PC is already one
further. That the Decode step is kept, so that it takes three, is the spec's decision D25 (assumption 10). -/
def Obligations.InstructionCycle : Prop :=
  ∀ (P : Params) (s : State) (i : Instr) (w : Byte), P.wf → s.phase = .fetch → s.inputs = [] →
    s.mem.read s.pc.toNat = some w → encodeWith P i = .toy8 w →
    runWith P 3 s = exec i { s with ir := w, pc := s.pc + 1, phase := .execute, response := .status .ok }

/-- R106, R186: the phase follows the number of step events, so an instruction takes three of them and a run from Fetch
enters Halted after a multiple of three. The count is the spec's decision D25 (the Decode step is kept, assumption 10). -/
def Obligations.ThreeStepsPerInstruction : Prop :=
  ∀ (P : Params) (s t : State) (n : Nat), s.phase = .fetch → s.inputs = [] → runWith P n s = .next t →
    (t.phase = .fetch → n % 3 = 0) ∧ (t.phase = .decode → n % 3 = 1) ∧ (t.phase = .execute → n % 3 = 2) ∧
    (t.phase ≠ .halted → ∀ u, runWith P (n + 1) s = .next u → u.phase = .halted → (n + 1) % 3 = 0)

/-- R103, R107: the Decode step changes only PHASE (kept by decision D25, assumption 10); a step event in Halted changes
nothing and returns AlreadyHalted (decision D21, assumption 6), however often it is repeated. -/
def Obligations.DecodeAndHaltedSteps : Prop :=
  ∀ (P : Params) (s : State),
    (s.phase = .decode → stepEvent P s = .next { s with phase := .execute, response := .status .ok }) ∧
    (s.phase = .halted → s.inputs = [] → ∀ n,
      runWith P (n + 1) s = .next { s with response := .status .alreadyHalted })

/-- R18: the transitions of PHASE under a step event; reset, load and assembly give Fetch from any phase, and nothing else
leaves Halted. -/
def Obligations.LegalPhaseTransitions : Prop :=
  (∀ (P : Params) (s t : State), P.wf → stepEvent P s = .next t →
    (s.phase = .fetch → t.phase = .decode) ∧
    (s.phase = .decode → t.phase = .execute) ∧
    (s.phase = .execute → (t.phase = .fetch ∧ ∃ m, m ≠ .halt ∧ opcodeOf s.ir = P.opc m) ∨
      (t.phase = .halted ∧ ∀ m, m ≠ .halt → opcodeOf s.ir ≠ P.opc m)) ∧
    (s.phase = .halted → t.phase = .halted)) ∧
  (∀ (P : Params) (s t : State) (e : HostEvent), perform P e s = .next t →
    ((e = .reset ∨ (∃ words, e = .load words) ∨ (∃ source, e = .assemble source)) → t.phase = .fetch) ∧
    (s.phase = .halted → t.phase ≠ .halted →
      e = .reset ∨ (∃ words, e = .load words) ∨ (∃ source, e = .assemble source)))

/-- R146: only reset, load and assembly leave Halted, and they restart at PC = 0 with the registers cleared. -/
def Obligations.OnlyResetOrLoadLeavesHalted : Prop :=
  ∀ (P : Params) (s t : State), s.phase = .halted → stepWith P s = .next t → t.phase ≠ .halted →
    (nextEvent s = .reset ∨ (∃ words, nextEvent s = .load words) ∨ (∃ source, nextEvent s = .assemble source)) ∧
    t.pc = 0 ∧ t.ir = 0 ∧ t.ac = 0 ∧ t.phase = .fetch

/-- R26, R105: the write ports: what a step event leaves unchanged in each phase, and that an Execute step changes at most one of
AC, memory and PC, and at most one memory word. -/
def Obligations.WritePorts : Prop :=
  ∀ (P : Params) (s t : State), stepEvent P s = .next t →
    t.inputs = s.inputs ∧
    (s.phase = .fetch → t.ac = s.ac ∧ t.mem = s.mem) ∧
    (s.phase = .decode → t.pc = s.pc ∧ t.ir = s.ir ∧ t.ac = s.ac ∧ t.mem = s.mem) ∧
    (s.phase = .execute → t.ir = s.ir ∧
      ((t.ac = s.ac ∧ t.mem = s.mem) ∨ (t.ac = s.ac ∧ t.pc = s.pc) ∨ (t.mem = s.mem ∧ t.pc = s.pc)) ∧
      ∀ x : Nat, x ≠ effectiveAddress (operandOf s.ir) → t.mem.read x = s.mem.read x) ∧
    (s.phase = .halted → t.snapshot = s.snapshot)

/-- R12, R13, R14: which events write PC, IR and AC. -/
def Obligations.RegisterWriters : Prop :=
  ∀ (P : Params) (s t : State), P.wf → stepWith P s = .next t →
    (nextEvent s = .step ∨ ∃ w, nextEvent s = .decode w) →
    (t.ir ≠ s.ir → nextEvent s = .step ∧ s.phase = .fetch) ∧
    (t.ac ≠ s.ac → nextEvent s = .step ∧ s.phase = .execute ∧
      (opcodeOf s.ir = P.opc .load ∨ opcodeOf s.ir = P.opc .add ∨ opcodeOf s.ir = P.opc .sub)) ∧
    (t.pc ≠ s.pc → nextEvent s = .step ∧
      ((s.phase = .fetch ∧ t.pc = s.pc + 1) ∨
       (s.phase = .execute ∧ t.pc = operandOf s.ir ∧
        (opcodeOf s.ir = P.opc .jump ∨ (opcodeOf s.ir = P.opc .jumpIfZero ∧ s.ac = 0)))))

/-- R101: the outcome of a step event depends on PC, IR, AC, PHASE and memory alone: the queue and the last response have
no influence on it. -/
def Obligations.StepDependsOnArchitecturalStateOnly : Prop :=
  ∀ (P : Params) (s : State) (es : List HostEvent) (r : Response),
    (∀ t, stepEvent P s = .next t →
      stepEvent P { s with inputs := es, response := r } = .next { t with inputs := es }) ∧
    (∀ f, stepEvent P s = .refused f → stepEvent P { s with inputs := es, response := r } = .refused f)

/-- R101, R166: once memory is loaded (assumption 3) a step event always has a next state, and memory stays loaded. -/
def Obligations.LoadedMachineAlwaysSteps : Prop :=
  ∀ (P : Params) (s : State) (n : Nat), Loaded s → s.inputs = [] →
    ∃ t, runWith P n s = .next t ∧ Loaded t ∧ t.inputs = []

/-- R33, R140, R141 (decision D15, assumption 11): a memory access of one word reports OutOfRange exactly outside 0..15, which no 4-bit address is, and
no event of this machine ends in a fault. -/
def Obligations.NoEventFaults : Prop :=
  (∀ (s : State) (a : Nat) (v : Int),
    (readThen s a (fun w => endInstr (s.setAc w.toNat)) = .fault (.outOfRange a) ↔ 16 ≤ a) ∧
    (writeThen s a v endInstr = .fault (.outOfRange a) ↔ 16 ≤ a)) ∧
  ∀ (P : Params) (s : State) (f : Fault), stepWith P s ≠ .fault f

/-- R166, R34, D26 (the model's refusals, assumptions 3 and 15): a step is refused only for a word without a value or a
list of more than 16 words; the refused address is the one the step reads. -/
def Obligations.RefusalsAreUnloadedOrTooLong : Prop :=
  ∀ (P : Params) (s : State) (f : Refusal), stepWith P s = .refused f →
    (nextEvent s = .step ∧
      ∃ a : Addr, stepAccess P s = .read a ∧ f = .unloadedMemory a.toNat ∧ s.mem.read a.toNat = none) ∨
    (∃ words, nextEvent s = .load words ∧ 16 < words.length ∧ f = .imageTooLong words.length)

/-- R20, R134, R178: a machine halts either by HALT or by the fail-stop, never both, and IR says which. -/
def Obligations.HaltCauseIsReadableFromIr : Prop :=
  ∀ (P : Params) (s t : State), P.wf → s.phase = .execute → stepEvent P s = .next t → t.phase = .halted →
    (HaltedNormally P t ∨ FailStopped P t) ∧ ¬ (HaltedNormally P t ∧ FailStopped P t) ∧
    (HaltedNormally P t ↔ opcodeOf s.ir = P.opc .halt) ∧ t.runResult = some t.snapshot

/-- R142: after a halt, IR is the word that halted the machine, it was fetched from PC - 1, and AC and memory are as the
program left them. The three step events of an instruction are decision D25 (assumption 10). -/
def Obligations.HaltedPcIsOnePastTheWord : Prop :=
  ∀ (P : Params) (s t : State), s.phase = .fetch → s.inputs = [] → runWith P 3 s = .next t → t.phase = .halted →
    t.pc - 1 = s.pc ∧ s.mem.read s.pc.toNat = some t.ir ∧ t.ac = s.ac ∧ t.mem = s.mem

/-! ### Invariants -/

/-- The canonical form of memory (the model's own, assumption 3) is kept by every event of the machine. -/
def Obligations.EveryStepKeepsMemoryCanonical : Prop :=
  ∀ (P : Params) (s t : State), MemoryCanonical s → stepWith P s = .next t → MemoryCanonical t

/-- The canonical form (the model's own, assumption 3) holds at power-on, with no memory word known and for every INIT_MEM
(decision D12). -/
def Obligations.PowerOnMemoryCanonical : Prop :=
  MemoryCanonical State.reset ∧ ∀ initMem, MemoryCanonical (State.powerOn initMem) ∧ Loaded (State.powerOn initMem)

/-! ### Host events -/

/-- R25, R162: the values after power-on; memory is INIT_MEM (decision D12), and in the reset state no word has a value
(the model's choice, assumption 3). -/
def Obligations.PowerOnState : Prop :=
  ∀ initMem : Addr → Byte, ∀ s : State, s = State.reset ∨ s = State.powerOn initMem →
    s.pc = 0 ∧ s.ir = 0 ∧ s.ac = 0 ∧ s.phase = .fetch ∧
    (s = State.reset → ∀ a : Addr, s.mem.read a.toNat = none) ∧
    (s = State.powerOn initMem → ∀ a : Addr, s.mem.read a.toNat = some (initMem a))

/-- R160: reset clears the registers in every phase and leaves memory unchanged, and is the only event besides load that
leaves Halted. That it returns no status is the model's reading (assumption 6). -/
def Obligations.ResetEventClearsRegisters : Prop :=
  ∀ (P : Params) (s : State),
    (∃ r, perform P .reset s = .next { s with pc := 0, ir := 0, ac := 0, phase := .fetch, response := r }) ∧
    ∀ (e : HostEvent) (t : State), s.phase = .halted → perform P e s = .next t → t.phase ≠ .halted →
      e = .reset ∨ (∃ words, e = .load words) ∨ (∃ source, e = .assemble source)

/-- R163, R34 (decisions D6, D26, D32, assumptions 2 and 15): load of at most 16 words replaces the whole memory and clears the registers; a word that the list does not
give is 0 below DATA_BASE and DATA_SEED from there up; a longer list is refused. -/
def Obligations.LoadReplacesMemory : Prop :=
  ∀ (P : Params) (s : State) (words : List Int),
    (words.length ≤ 16 → ∃ t, perform P (.load words) s = .next t ∧
      t.pc = 0 ∧ t.ir = 0 ∧ t.ac = 0 ∧ t.phase = .fetch ∧ t.inputs = s.inputs ∧
      ∀ a : Addr,
        (∀ v, words[a.toNat]? = some v → t.mem.read a.toNat = some (mask 8 v)) ∧
        (words.length ≤ a.toNat → a.toNat < P.dataBase → t.mem.read a.toNat = some 0) ∧
        (words.length ≤ a.toNat → P.dataBase ≤ a.toNat → t.mem.read a.toNat = some (P.dataSeed a))) ∧
    (16 < words.length → perform P (.load words) s = .refused (.imageTooLong words.length))

/-- R144 (decision D2, assumption 16): of simultaneous events, reset wins over load and load over step, and the losers are ignored; with none the core
holds its state. -/
def Obligations.EventPriority : Prop :=
  ∀ (P : Params) (s : State) (load : Option (List Int)) (stp : Bool) (words : List Int),
    clock P ⟨true, load, stp⟩ s = perform P .reset s ∧
    clock P ⟨false, some words, stp⟩ s = perform P (.load words) s ∧
    clock P ⟨false, none, true⟩ s = perform P .step s ∧
    clock P ⟨false, none, false⟩ s = .next s

/-! ### Assembler -/

/-- R60, R68 (decisions D6, D11, assumptions 2 and 13): each line emits at most one word, in line order, and no more words are emitted than the instruction region
holds. -/
def Obligations.AtMostOneWordPerLine : Prop :=
  ∀ (P : Params) (source : List (List Char)) (line : List Char),
    (assembleWords P source).length ≤ source.length ∧ (assembleWords P source).length ≤ P.dataBase ∧
    (assembleWords P (source ++ [line]) = assembleWords P source ∨
      ∃ w, assembleWords P (source ++ [line]) = assembleWords P source ++ [w])

/-- R62, R65: a line that is empty after stripping, or whose first token spells no mnemonic, emits nothing and does not
advance the address: the source without it assembles to the same words. -/
def Obligations.UnrecognisedLinesEmitNothing : Prop :=
  ∀ (P : Params) (before after : List (List Char)) (line : List Char),
    (trimBlanks (stripComment line) = [] ∨
      ∃ first rest, tokens (trimBlanks (stripComment line)) = first :: rest ∧ lookupMnemonic first = none) →
    assembleWords P (before ++ line :: after) = assembleWords P (before ++ after)

/-- R64 (decision D4, assumption 13): the letter case of a source does not matter. -/
def Obligations.AssemblerIgnoresLetterCase : Prop :=
  ∀ (P : Params) (source : List (List Char)),
    assembleWords P (source.map fun line : List Char => line.map upperChar) = assembleWords P source

/-- R69, R71 (decisions D6, D32, assumption 2): the image of a source holds the emitted words, then zeros, then DATA_SEED, and assembling loads exactly it,
whatever the machine held before. -/
def Obligations.AssembledImageIsLoaded : Prop :=
  ∀ (P : Params) (s : State) (source : List (List Char)), P.wf →
    ∃ t, perform P (.assemble source) s = .next t ∧
      t.pc = 0 ∧ t.ir = 0 ∧ t.ac = 0 ∧ t.phase = .fetch ∧
      ∀ a : Addr,
        (∀ w, (assembleWords P source)[a.toNat]? = some w → t.mem.read a.toNat = some w) ∧
        ((assembleWords P source).length ≤ a.toNat → a.toNat < P.dataBase → t.mem.read a.toNat = some 0) ∧
        (P.dataBase ≤ a.toNat → t.mem.read a.toNat = some (P.dataSeed a))

/-- R73 (decision D4, assumption 22): assembling the canonical text of a word with an assigned opcode gives the word back. -/
def Obligations.ListingReassembles : Prop :=
  ∀ (P : Params) (w : Byte), P.wf → 0 < P.dataBase →
    ((∃ m, opcodeOf w = P.opc m) → ∃ line, listing P w = .text line ∧ assembleWords P [line] = [w]) ∧
    ((∀ m, opcodeOf w ≠ P.opc m) → listing P w = .number w)

/-! ### Cycle Runner -/

/-- R173: a continuous run passes through the states that single step events give; while it is active no step was left out
and the core is not halted; without a cancel it ends only in Halted; and it never produces AlreadyHalted. That this holds also of a run started on a
halted core is the model's choice (assumption 17): R173 says "not normally produced". -/
def Obligations.RunnerTicksAreStepEvents : Prop :=
  ∀ (P : Params) (S T : Session) (n : Nat), S.core.inputs = [] → S.ticks P n = .next T →
    (∃ j, j ≤ n ∧ runWith P j S.core = .next T.core ∧ (T.run ≠ none → j = n)) ∧
    (0 < n → T.run ≠ none → T.core.phase ≠ .halted) ∧
    (S.run ≠ none → T.run = none → T.core.phase = .halted) ∧
    (S.core.response ≠ .status .alreadyHalted → T.core.response ≠ .status .alreadyHalted)

/-- R172, R174, R175, R176: runStep is one step event; cancel and setSpeed change no hardware state; a new run has the
interval it was given, whether or not one was active, and nothing is left of the old one; re-assembly cancels the run. -/
def Obligations.RunnerOperationsKeepTheCore : Prop :=
  ∀ (P : Params) (S : Session) (k j : Nat) (source : List (List Char)),
    (∀ s, stepEvent P S.core = .next s → S.runStep P = .next { S with core := s }) ∧
    S.cancel.core = S.core ∧ S.cancel.run = none ∧
    (S.setSpeed k).core = S.core ∧ (S.run.isSome → (S.setSpeed k).run = some k) ∧
    (S.runContinuous k).run = some k ∧ (S.runContinuous k).runContinuous j = S.runContinuous j ∧ (S.runContinuous k).core = S.core ∧
    (∀ T, S.assemble P source = .next T → T.run = none ∧ perform P (.assemble source) S.core = .next T.core)
end

