-- ==== Sys2Proof/Laws/Codec.lean ====
section
/-! SUPPORT. The small laws of the bit-field functions and of the decoder (spec/40_codec_and_lc3_decode.md). -/

namespace Sys2Proof.Machine

theorem maskNat_lt (n : Nat) (v : Int) : maskNat n v < 2 ^ n := by
  have h2 : (0 : Int) < ((2 ^ n : Nat) : Int) := by exact_mod_cast Nat.two_pow_pos n
  have h0 := Int.emod_nonneg v (ne_of_gt h2)
  have h1 := Int.emod_lt_of_pos v h2
  unfold maskNat
  omega

@[simp] theorem maskNat_natCast (n v : Nat) : maskNat n (v : Int) = v % 2 ^ n := by
  unfold maskNat
  rw [← Int.natCast_mod, Int.toNat_natCast]

/-- A value that fits is unchanged by masking (R7). -/
theorem maskNat_of_lt {n v : Nat} (h : v < 2 ^ n) : maskNat n (v : Int) = v := by
  rw [maskNat_natCast, Nat.mod_eq_of_lt h]

/-- Masking keeps the residue modulo 2^n (R7). -/
theorem maskNat_emod (n : Nat) (v : Int) : ((maskNat n v : Nat) : Int) = v % ((2 ^ n : Nat) : Int) := by
  have h2 : (0 : Int) < ((2 ^ n : Nat) : Int) := by exact_mod_cast Nat.two_pow_pos n
  exact Int.toNat_of_nonneg (Int.emod_nonneg v (ne_of_gt h2))

@[simp] theorem mask_toNat (n : Nat) (v : Int) : (mask n v).toNat = maskNat n v := by
  simp [mask, Nat.mod_eq_of_lt (maskNat_lt n v)]

theorem mask_eq_ofInt (n : Nat) (v : Int) : mask n v = BitVec.ofInt n v := by
  apply BitVec.eq_of_toNat_eq
  simp [maskNat]

/-- Masking the unsigned value of a word of the same width gives the word back. -/
@[simp] theorem mask_natCast_toNat {n : Nat} (x : BitVec n) : mask n (x.toNat : Int) = x := by
  apply BitVec.eq_of_toNat_eq
  simp

theorem mask_add {n : Nat} (x y : BitVec n) : mask n ((x.toNat : Int) + (y.toNat : Int)) = x + y := by
  simp [mask_eq_ofInt, BitVec.ofInt_add]

theorem mask_sub {n : Nat} (x y : BitVec n) : mask n ((x.toNat : Int) - (y.toNat : Int)) = x - y := by
  rw [mask_eq_ofInt, Int.sub_eq_add_neg, BitVec.ofInt_add, BitVec.ofInt_neg, BitVec.sub_eq_add_neg]
  simp

theorem mask_succ {n : Nat} (x : BitVec n) : mask n ((x.toNat : Int) + 1) = x + 1 := by
  simp [mask_eq_ofInt, BitVec.ofInt_add]

theorem maskNat_maskNat (n : Nat) (v : Int) : maskNat n ((maskNat n v : Nat) : Int) = maskNat n v :=
  maskNat_of_lt (maskNat_lt n v)

/-- What is packed already stands above the fields still to come (R84). -/
theorem packFields_eq (acc : Nat) (fields : List (Int × Nat)) :
    packFields acc fields = acc * 2 ^ (fields.map Prod.snd).sum + packFields 0 fields := by
  induction fields generalizing acc with
  | nil => simp [packFields]
  | cons f fields ih =>
    simp only [packFields, List.map_cons, List.sum_cons]
    rw [ih, ih (0 * 2 ^ f.2 + maskNat f.2 f.1), pow_add]
    ring

/-- One turn of the loop of R84. -/
theorem packFields_append (acc : Nat) (fields : List (Int × Nat)) (f : Int × Nat) :
    packFields acc (fields ++ [f]) = packFields acc fields * 2 ^ f.2 + maskNat f.2 f.1 := by
  induction fields generalizing acc with
  | nil => rfl
  | cons g fields ih => exact ih _

/-- Packed fields have no bit beyond their widths (R85). -/
theorem packFields_lt (fields : List (Int × Nat)) : packFields 0 fields < 2 ^ (fields.map Prod.snd).sum := by
  induction fields with
  | nil => simp [packFields]
  | cons f fields ih =>
    simp only [packFields, List.map_cons, List.sum_cons]
    rw [packFields_eq, pow_add, Nat.zero_mul, Nat.zero_add]
    calc _ < (maskNat f.2 f.1 + 1) * 2 ^ (fields.map Prod.snd).sum := by rw [Nat.succ_mul]; omega
      _ ≤ _ := Nat.mul_le_mul_right _ (maskNat_lt f.2 f.1)

end Sys2Proof.Machine

namespace Sys2Proof

open Sys2Proof.Machine

/-- The opcode of a composed TOY8 word (R51). -/
theorem opcodeOf_toy8Word (op : Opcode) (a : Addr) : opcodeOf (toy8Word op a.toNat) = op := by
  revert op a
  decide

/-- The operand of a composed TOY8 word (R51). -/
theorem operandOf_toy8Word (op : Opcode) (a : Addr) : operandOf (toy8Word op a.toNat) = a := by
  revert op a
  decide

/-- A TOY8 word is composed of its two fields (R51). -/
theorem toy8Word_fields (w : Byte) : toy8Word (opcodeOf w) (operandOf w).toNat = w := by
  revert w
  decide

/-- OPC is injective exactly when the parameter check says so (R5). -/
theorem Params.opc_injective {P : Params} (h : P.wf) {m n : Mnemonic} (e : P.opc m = P.opc n) : m = n := by
  simp [Params.wf, Mnemonic.all] at h
  cases m <;> cases n <;> simp_all

theorem Params.dataBase_le {P : Params} (h : P.wf) : P.dataBase ≤ memorySize := by
  simp [Params.wf] at h
  exact h.2

theorem Mnemonic.mem_all (m : Mnemonic) : m ∈ Mnemonic.all := by
  cases m <;> decide

/-- A mnemonic is found at its own opcode number, and only there (R53, R104). -/
theorem Params.mnemonicOf_eq_some {P : Params} (h : P.wf) {op : Opcode} {m : Mnemonic} :
    P.mnemonicOf op = some m ↔ op = P.opc m := by
  constructor
  · intro e
    simpa using List.find?_some e
  · rintro rfl
    cases e : P.mnemonicOf (P.opc m) with
    | none =>
      have := List.find?_eq_none.mp e m (Mnemonic.mem_all m)
      simp at this
    | some n =>
      have := List.find?_some e
      rw [Params.opc_injective h (beq_iff_eq.mp this)]

/-- No mnemonic is found exactly at the opcode numbers outside the image of OPC (R54). -/
theorem Params.mnemonicOf_eq_none {P : Params} {op : Opcode} :
    P.mnemonicOf op = none ↔ ∀ m, op ≠ P.opc m := by
  simp only [Params.mnemonicOf, List.find?_eq_none, beq_iff_eq]
  exact ⟨fun h m => h m (Mnemonic.mem_all m), fun h m _ => h m⟩

/-- The instruction of a word whose opcode a mnemonic has (R104). -/
theorem decodeToy8_of_opc {P : Params} (h : P.wf) {w : Byte} {m : Mnemonic} (e : opcodeOf w = P.opc m) :
    decodeToy8 P w = Instr.ofMnemonic m (operandOf w) := by
  unfold decodeToy8
  rw [(Params.mnemonicOf_eq_some h).mpr e]

/-- The instruction of a word whose opcode no mnemonic has (R54, R134). -/
theorem decodeToy8_of_unassigned {P : Params} {w : Byte} (e : ∀ m, opcodeOf w ≠ P.opc m) :
    decodeToy8 P w = Instr.ofUnassigned (P.unassigned.idxOf (opcodeOf w)) (operandOf w) := by
  unfold decodeToy8
  rw [Params.mnemonicOf_eq_none.mpr e]

end Sys2Proof
end

