-- ==== Sys2Proof/Laws/Memory.lean ====
section
/-! SUPPORT. The laws of the word memory (spec/20_memory.md R31, R32): read after write, and that every memory operation
keeps the canonical form. -/

namespace Sys2Proof.Machine

/-- A read after a write gives the word written at its address and the old word elsewhere (R31, R32). -/
theorem Memory.read_write (m : Memory) (a : Nat) (v : Byte) (x : Nat) :
    (m.write a v).read x = if x = a then some v else m.read x := by
  induction m with
  | nil => simp only [Memory.write, Memory.read, eq_comm]
  | cons c m ih =>
    simp only [Memory.write]
    split
    · simp only [Memory.read, eq_comm]
    · split <;> simp only [Memory.read, ih] <;> grind

theorem Memory.read_write_same (m : Memory) (a : Nat) (v : Byte) : (m.write a v).read a = some v := by
  simp [Memory.read_write]

theorem Memory.read_write_other (m : Memory) {a x : Nat} (v : Byte) (h : x ≠ a) :
    (m.write a v).read x = m.read x := by
  simp [Memory.read_write, h]

theorem Memory.mem_write {m : Memory} {a : Nat} {v : Byte} {c : Host.Cell} (h : c ∈ m.write a v) :
    c = (a, v) ∨ c ∈ m := by
  induction m with
  | nil => simpa [Memory.write] using h
  | cons d m ih =>
    simp only [Memory.write] at h
    split at h
    · simpa using h
    · split at h
      · simp only [List.mem_cons] at h ⊢; tauto
      · simp only [List.mem_cons] at h ⊢; tauto

/-- A write inside the address space keeps the canonical form. -/
theorem Memory.write_wf {m : Memory} {a : Nat} (v : Byte) (h : m.wf) (ha : a < memorySize) : (m.write a v).wf := by
  refine ⟨?_, fun c hc => (Memory.mem_write hc).elim (fun e => e ▸ ha) (h.2 c)⟩
  obtain ⟨hp, -⟩ := h
  induction m with
  | nil => simp [Memory.write]
  | cons c m ih =>
    obtain ⟨b, w⟩ := c
    have hb := List.pairwise_cons.mp hp
    simp only [Memory.write]
    split
    · refine List.pairwise_cons.mpr ⟨fun d hd => ?_, hp⟩
      rcases List.mem_cons.mp hd with rfl | hd
      · assumption
      · have := hb.1 d hd; simp only at this ⊢; omega
    · split
      · subst b; exact List.pairwise_cons.mpr hb
      · refine List.pairwise_cons.mpr ⟨fun d hd => ?_, ih hb.2⟩
        rcases Memory.mem_write hd with rfl | hd
        · simp only; omega
        · exact hb.1 d hd

theorem Memory.reset_wf : State.reset.mem.wf := by decide

/-- A whole image is in canonical form. -/
theorem Memory.ofImage_wf (image : Addr → Byte) : (Memory.ofImage image).wf := by
  refine ⟨?_, ?_⟩
  · simp [Memory.ofImage, memorySize, List.range_succ]
  · simp [Memory.ofImage]

/-- A whole image reads as itself at every address (R34, R163). -/
theorem Memory.read_ofImage (image : Addr → Byte) (a : Addr) : (Memory.ofImage image).read a.toNat = some (image a) := by
  have key : ∀ n : Nat, n < 16 → (Memory.ofImage image).read n = some (image (BitVec.ofNat 4 n)) := by
    intro n hn
    interval_cases n <;> rfl
  simpa using key a.toNat a.isLt

/-- After a load every address has a value (R34). -/
theorem Memory.ofImage_loaded (image : Addr → Byte) : (Memory.ofImage image).loaded := fun a => by
  rw [Memory.read_ofImage]; rfl

/-- A write leaves every address that has a value with a value. -/
theorem Memory.write_loaded {m : Memory} (a : Nat) (v : Byte) (h : m.loaded) : (m.write a v).loaded := fun x => by
  rw [Memory.read_write]; split
  · rfl
  · exact h x

theorem Memory.completed_loaded (P : Params) (m : Memory) : (Memory.completed P m).loaded :=
  Memory.ofImage_loaded _

theorem Memory.completed_wf (P : Params) (m : Memory) : (Memory.completed P m).wf := Memory.ofImage_wf _

end Sys2Proof.Machine
end

