-- ==== Sys2Proof/Laws/State.lean ====
section
/-! SUPPORT. One lemma per field per update of the state: what each named update leaves in each field. -/

namespace Sys2Proof.Machine

@[simp] theorem State.setPc_pc (s : State) (v : Int) : (s.setPc v).pc = mask 4 v := rfl
@[simp] theorem State.setPc_ir (s : State) (v : Int) : (s.setPc v).ir = s.ir := rfl
@[simp] theorem State.setPc_ac (s : State) (v : Int) : (s.setPc v).ac = s.ac := rfl
@[simp] theorem State.setPc_phase (s : State) (v : Int) : (s.setPc v).phase = s.phase := rfl
@[simp] theorem State.setPc_mem (s : State) (v : Int) : (s.setPc v).mem = s.mem := rfl
@[simp] theorem State.setPc_inputs (s : State) (v : Int) : (s.setPc v).inputs = s.inputs := rfl
@[simp] theorem State.setPc_response (s : State) (v : Int) : (s.setPc v).response = s.response := rfl

@[simp] theorem State.setIr_pc (s : State) (v : Byte) : (s.setIr v).pc = s.pc := rfl
@[simp] theorem State.setIr_ir (s : State) (v : Byte) : (s.setIr v).ir = v := rfl
@[simp] theorem State.setIr_ac (s : State) (v : Byte) : (s.setIr v).ac = s.ac := rfl
@[simp] theorem State.setIr_phase (s : State) (v : Byte) : (s.setIr v).phase = s.phase := rfl
@[simp] theorem State.setIr_mem (s : State) (v : Byte) : (s.setIr v).mem = s.mem := rfl
@[simp] theorem State.setIr_inputs (s : State) (v : Byte) : (s.setIr v).inputs = s.inputs := rfl
@[simp] theorem State.setIr_response (s : State) (v : Byte) : (s.setIr v).response = s.response := rfl

@[simp] theorem State.setAc_pc (s : State) (v : Int) : (s.setAc v).pc = s.pc := rfl
@[simp] theorem State.setAc_ir (s : State) (v : Int) : (s.setAc v).ir = s.ir := rfl
@[simp] theorem State.setAc_ac (s : State) (v : Int) : (s.setAc v).ac = mask 8 v := rfl
@[simp] theorem State.setAc_phase (s : State) (v : Int) : (s.setAc v).phase = s.phase := rfl
@[simp] theorem State.setAc_mem (s : State) (v : Int) : (s.setAc v).mem = s.mem := rfl
@[simp] theorem State.setAc_inputs (s : State) (v : Int) : (s.setAc v).inputs = s.inputs := rfl
@[simp] theorem State.setAc_response (s : State) (v : Int) : (s.setAc v).response = s.response := rfl

@[simp] theorem State.setPhase_pc (s : State) (p : Phase) : (s.setPhase p).pc = s.pc := rfl
@[simp] theorem State.setPhase_ir (s : State) (p : Phase) : (s.setPhase p).ir = s.ir := rfl
@[simp] theorem State.setPhase_ac (s : State) (p : Phase) : (s.setPhase p).ac = s.ac := rfl
@[simp] theorem State.setPhase_phase (s : State) (p : Phase) : (s.setPhase p).phase = p := rfl
@[simp] theorem State.setPhase_mem (s : State) (p : Phase) : (s.setPhase p).mem = s.mem := rfl
@[simp] theorem State.setPhase_inputs (s : State) (p : Phase) : (s.setPhase p).inputs = s.inputs := rfl
@[simp] theorem State.setPhase_response (s : State) (p : Phase) : (s.setPhase p).response = s.response := rfl

@[simp] theorem State.setMem_pc (s : State) (m : Memory) : (s.setMem m).pc = s.pc := rfl
@[simp] theorem State.setMem_ir (s : State) (m : Memory) : (s.setMem m).ir = s.ir := rfl
@[simp] theorem State.setMem_ac (s : State) (m : Memory) : (s.setMem m).ac = s.ac := rfl
@[simp] theorem State.setMem_phase (s : State) (m : Memory) : (s.setMem m).phase = s.phase := rfl
@[simp] theorem State.setMem_mem (s : State) (m : Memory) : (s.setMem m).mem = m := rfl
@[simp] theorem State.setMem_inputs (s : State) (m : Memory) : (s.setMem m).inputs = s.inputs := rfl
@[simp] theorem State.setMem_response (s : State) (m : Memory) : (s.setMem m).response = s.response := rfl

@[simp] theorem State.respond_pc (s : State) (r : Response) : (s.respond r).pc = s.pc := rfl
@[simp] theorem State.respond_ir (s : State) (r : Response) : (s.respond r).ir = s.ir := rfl
@[simp] theorem State.respond_ac (s : State) (r : Response) : (s.respond r).ac = s.ac := rfl
@[simp] theorem State.respond_phase (s : State) (r : Response) : (s.respond r).phase = s.phase := rfl
@[simp] theorem State.respond_mem (s : State) (r : Response) : (s.respond r).mem = s.mem := rfl
@[simp] theorem State.respond_inputs (s : State) (r : Response) : (s.respond r).inputs = s.inputs := rfl
@[simp] theorem State.respond_response (s : State) (r : Response) : (s.respond r).response = r := rfl

@[simp] theorem State.setInputs_pc (s : State) (es : List HostEvent) : (s.setInputs es).pc = s.pc := rfl
@[simp] theorem State.setInputs_ir (s : State) (es : List HostEvent) : (s.setInputs es).ir = s.ir := rfl
@[simp] theorem State.setInputs_ac (s : State) (es : List HostEvent) : (s.setInputs es).ac = s.ac := rfl
@[simp] theorem State.setInputs_phase (s : State) (es : List HostEvent) : (s.setInputs es).phase = s.phase := rfl
@[simp] theorem State.setInputs_mem (s : State) (es : List HostEvent) : (s.setInputs es).mem = s.mem := rfl
@[simp] theorem State.setInputs_inputs (s : State) (es : List HostEvent) : (s.setInputs es).inputs = es := rfl
@[simp] theorem State.setInputs_response (s : State) (es : List HostEvent) : (s.setInputs es).response = s.response := rfl

@[simp] theorem State.clearRegisters_pc (s : State) : (s.clearRegisters).pc = 0 := rfl
@[simp] theorem State.clearRegisters_ir (s : State) : (s.clearRegisters).ir = 0 := rfl
@[simp] theorem State.clearRegisters_ac (s : State) : (s.clearRegisters).ac = 0 := rfl
@[simp] theorem State.clearRegisters_phase (s : State) : (s.clearRegisters).phase = .fetch := rfl
@[simp] theorem State.clearRegisters_mem (s : State) : (s.clearRegisters).mem = s.mem := rfl
@[simp] theorem State.clearRegisters_inputs (s : State) : (s.clearRegisters).inputs = s.inputs := rfl
@[simp] theorem State.clearRegisters_response (s : State) : (s.clearRegisters).response = .none := rfl

end Sys2Proof.Machine
end

