-- ==== Sys2Proof/Laws/Ops.lean ====
section
/-! SUPPORT. One lemma per shared operation: everything it can answer, said once. -/

namespace Sys2Proof.Machine

/-- A 4-bit address is inside the address space, so it is never OutOfRange (R33). -/
theorem addr_lt (a : Addr) : a.toNat < memorySize := a.isLt

/-- What a read at a 4-bit address answers: the rest of the instruction on the word there, or the refusal (R31, R166). -/
theorem readThen_addr (s : State) (a : Addr) (k : Byte → Result) :
    readThen s a.toNat k =
      match s.mem.read a.toNat with
      | some v => k v
      | none => .refused (.unloadedMemory a.toNat) := by
  unfold readThen
  exact (if_neg (Nat.not_le.mpr (addr_lt a))).trans (by cases s.mem.read a.toNat <;> rfl)

theorem readThen_of_read {s : State} {a : Addr} {v : Byte} (k : Byte → Result) (h : s.mem.read a.toNat = some v) :
    readThen s a.toNat k = k v := by
  rw [readThen_addr, h]

/-- A read that goes on found a word (R31). -/
theorem readThen_next {s t : State} {a : Addr} {k : Byte → Result} (h : readThen s a.toNat k = .next t) :
    ∃ v, s.mem.read a.toNat = some v ∧ k v = .next t := by
  rw [readThen_addr] at h
  split at h
  · exact ⟨_, by assumption, h⟩
  · cases h

/-- What a write at a 4-bit address answers (R32). -/
theorem writeThen_addr (s : State) (a : Addr) (v : Int) (k : State → Result) :
    writeThen s a.toNat v k = k (s.setMem (s.mem.write a.toNat (mask 8 v))) := by
  unfold writeThen
  rw [if_neg (Nat.not_le.mpr (addr_lt a))]

@[simp] theorem effectiveAddress_eq (a : Addr) : effectiveAddress a = a.toNat := rfl

/-- PC <- a for a 4-bit target. -/
theorem State.setPc_addr (s : State) (a : Addr) : s.setPc (a.toNat : Int) = { s with pc := a } := by
  simp [State.setPc]

/-- PC <- PC + 1 wraps in 4 bits (R12). -/
theorem State.setPc_succ (s : State) (a : Addr) : s.setPc ((a.toNat : Int) + 1) = { s with pc := a + 1 } := by
  simp [State.setPc, mask_succ]

/-- AC <- v for an 8-bit value. -/
theorem State.setAc_byte (s : State) (v : Byte) : s.setAc (v.toNat : Int) = { s with ac := v } := by
  simp [State.setAc]

/-- AC <- mask_8 of an exact sum (R125). -/
theorem State.setAc_exactSum (s : State) (x y : Byte) : s.setAc (exactSum x y) = { s with ac := x + y } := by
  simp [State.setAc, exactSum, mask_add]

/-- AC <- mask_8 of an exact difference (R125). -/
theorem State.setAc_exactDifference (s : State) (x y : Byte) :
    s.setAc (exactDifference x y) = { s with ac := x - y } := by
  simp [State.setAc, exactDifference, mask_sub]

@[simp] theorem accumulatorIsZero_iff (s : State) : accumulatorIsZero s = true ↔ s.ac = 0 := by
  simp [accumulatorIsZero]

/-- The name an LC3D row shows depends on its opcode number alone (R89). -/
@[simp] theorem Lc3dOutputs.name_lc3dOutputs (op : Opcode) (dr sr1 : RegNum) (src : Lc3Operand) :
    (lc3dOutputs op dr sr1 src).name = lc3dName op := rfl

end Sys2Proof.Machine
end

