-- ==== Sys2Proof/Laws/Exec.lean ====
section
/-! SUPPORT. What exec and a step event can do, said once: inversion lemmas that invariants and frames are derived from. -/

namespace Sys2Proof.Machine

/-- LOAD in one equation (R120, R166). -/
theorem execLoad_eq (a : Addr) (s : State) :
    execLoad a s =
      match s.mem.read a.toNat with
      | some v => .next { s with ac := v, phase := .fetch }
      | none => .refused (.unloadedMemory a.toNat) := by
  rw [execLoad, effectiveAddress_eq, readThen_addr]
  simp only [State.setAc_byte]
  rfl

/-- ADD in one equation (R121, R166). -/
theorem execAdd_eq (a : Addr) (s : State) :
    execAdd a s =
      match s.mem.read a.toNat with
      | some v => .next { s with ac := s.ac + v, phase := .fetch }
      | none => .refused (.unloadedMemory a.toNat) := by
  rw [execAdd, effectiveAddress_eq, readThen_addr]
  simp only [State.setAc_exactSum]
  rfl

/-- SUB in one equation (R122, R166). -/
theorem execSub_eq (a : Addr) (s : State) :
    execSub a s =
      match s.mem.read a.toNat with
      | some v => .next { s with ac := s.ac - v, phase := .fetch }
      | none => .refused (.unloadedMemory a.toNat) := by
  rw [execSub, effectiveAddress_eq, readThen_addr]
  simp only [State.setAc_exactDifference]
  rfl

/-- STORE in one equation (R123). -/
theorem execStore_eq (a : Addr) (s : State) :
    execStore a s = .next { s with mem := s.mem.write a.toNat s.ac, phase := .fetch } := by
  rw [execStore, effectiveAddress_eq, writeThen_addr, mask_natCast_toNat]
  rfl

/-- JUMP in one equation (R130). -/
theorem execJump_eq (a : Addr) (s : State) : execJump a s = .next { s with pc := a, phase := .fetch } := by
  rw [execJump, effectiveAddress_eq, State.setPc_addr]
  rfl

/-- JUMP_IF_ZERO in one equation (R131). -/
theorem execJumpIfZero_eq (a : Addr) (s : State) :
    execJumpIfZero a s = .next { s with pc := if s.ac = 0 then a else s.pc, phase := .fetch } := by
  rw [execJumpIfZero, effectiveAddress_eq, State.setPc_addr]
  by_cases z : s.ac = 0
  · rw [if_pos ((accumulatorIsZero_iff s).mpr z), if_pos z]
    rfl
  · rw [if_neg (mt (accumulatorIsZero_iff s).mp z), if_neg z]
    rfl

/-- Everything exec can answer with a next state, over all constructors. -/
theorem exec_next {i : Instr} {s t : State} (h : exec i s = .next t) :
    (∃ a v, s.mem.read a.toNat = some v ∧
      ((i = .load a ∧ t = { s with ac := v, phase := .fetch }) ∨
       (i = .add a ∧ t = { s with ac := s.ac + v, phase := .fetch }) ∨
       (i = .sub a ∧ t = { s with ac := s.ac - v, phase := .fetch }))) ∨
    (∃ a, i = .store a ∧ t = { s with mem := s.mem.write a.toNat s.ac, phase := .fetch }) ∨
    (∃ a, i = .jump a ∧ t = { s with pc := a, phase := .fetch }) ∨
    (∃ a, i = .jumpIfZero a ∧ t = { s with pc := if s.ac = 0 then a else s.pc, phase := .fetch }) ∨
    (∃ a, (i = .halt a ∨ ∃ k, i = Instr.ofUnassigned k a) ∧ t = { s with phase := .halted }) ∨
    (∃ op dr sr1 src, i = Instr.ofLc3d op dr sr1 src ∧
      t = { s with response := .lc3d (lc3dOutputs op dr sr1 src) }) := by
  cases i with
  | load a =>
    obtain ⟨v, hv, e⟩ := readThen_next h
    rw [State.setAc_byte] at e
    exact .inl ⟨a, v, hv, .inl ⟨rfl, by cases e; rfl⟩⟩
  | add a =>
    obtain ⟨v, hv, e⟩ := readThen_next h
    rw [State.setAc_exactSum] at e
    exact .inl ⟨a, v, hv, .inr (.inl ⟨rfl, by cases e; rfl⟩)⟩
  | sub a =>
    obtain ⟨v, hv, e⟩ := readThen_next h
    rw [State.setAc_exactDifference] at e
    exact .inl ⟨a, v, hv, .inr (.inr ⟨rfl, by cases e; rfl⟩)⟩
  | store a =>
    rw [exec, execStore_eq] at h
    exact .inr (.inl ⟨a, rfl, by cases h; rfl⟩)
  | jump a =>
    rw [exec, execJump_eq] at h
    exact .inr (.inr (.inl ⟨a, rfl, by cases h; rfl⟩))
  | jumpIfZero a =>
    rw [exec, execJumpIfZero_eq] at h
    exact .inr (.inr (.inr (.inl ⟨a, rfl, by cases h; rfl⟩)))
  | halt a => exact .inr (.inr (.inr (.inr (.inl ⟨a, .inl rfl, by cases h; rfl⟩))))
  | unassigned7 a => exact .inr (.inr (.inr (.inr (.inl ⟨a, .inr ⟨0, rfl⟩, by cases h; rfl⟩))))
  | unassigned8 a => exact .inr (.inr (.inr (.inr (.inl ⟨a, .inr ⟨1, rfl⟩, by cases h; rfl⟩))))
  | unassigned9 a => exact .inr (.inr (.inr (.inr (.inl ⟨a, .inr ⟨2, rfl⟩, by cases h; rfl⟩))))
  | unassigned10 a => exact .inr (.inr (.inr (.inr (.inl ⟨a, .inr ⟨3, rfl⟩, by cases h; rfl⟩))))
  | unassigned11 a => exact .inr (.inr (.inr (.inr (.inl ⟨a, .inr ⟨4, rfl⟩, by cases h; rfl⟩))))
  | unassigned12 a => exact .inr (.inr (.inr (.inr (.inl ⟨a, .inr ⟨5, rfl⟩, by cases h; rfl⟩))))
  | unassigned13 a => exact .inr (.inr (.inr (.inr (.inl ⟨a, .inr ⟨6, rfl⟩, by cases h; rfl⟩))))
  | unassigned14 a => exact .inr (.inr (.inr (.inr (.inl ⟨a, .inr ⟨7, rfl⟩, by cases h; rfl⟩))))
  | unassigned15 a => exact .inr (.inr (.inr (.inr (.inl ⟨a, .inr ⟨8, rfl⟩, by cases h; rfl⟩))))
  | lc3dOp0 dr sr1 src =>
    exact .inr (.inr (.inr (.inr (.inr ⟨0, dr, sr1, src, rfl, by cases h; rfl⟩))))
  | lc3dAdd dr sr1 src =>
    exact .inr (.inr (.inr (.inr (.inr ⟨1, dr, sr1, src, rfl, by cases h; rfl⟩))))
  | lc3dOp2 dr sr1 src =>
    exact .inr (.inr (.inr (.inr (.inr ⟨2, dr, sr1, src, rfl, by cases h; rfl⟩))))
  | lc3dOp3 dr sr1 src =>
    exact .inr (.inr (.inr (.inr (.inr ⟨3, dr, sr1, src, rfl, by cases h; rfl⟩))))
  | lc3dOp4 dr sr1 src =>
    exact .inr (.inr (.inr (.inr (.inr ⟨4, dr, sr1, src, rfl, by cases h; rfl⟩))))
  | lc3dOp5 dr sr1 src =>
    exact .inr (.inr (.inr (.inr (.inr ⟨5, dr, sr1, src, rfl, by cases h; rfl⟩))))
  | lc3dOp6 dr sr1 src =>
    exact .inr (.inr (.inr (.inr (.inr ⟨6, dr, sr1, src, rfl, by cases h; rfl⟩))))
  | lc3dOp7 dr sr1 src =>
    exact .inr (.inr (.inr (.inr (.inr ⟨7, dr, sr1, src, rfl, by cases h; rfl⟩))))
  | lc3dOp8 dr sr1 src =>
    exact .inr (.inr (.inr (.inr (.inr ⟨8, dr, sr1, src, rfl, by cases h; rfl⟩))))
  | lc3dOp9 dr sr1 src =>
    exact .inr (.inr (.inr (.inr (.inr ⟨9, dr, sr1, src, rfl, by cases h; rfl⟩))))
  | lc3dOp10 dr sr1 src =>
    exact .inr (.inr (.inr (.inr (.inr ⟨10, dr, sr1, src, rfl, by cases h; rfl⟩))))
  | lc3dOp11 dr sr1 src =>
    exact .inr (.inr (.inr (.inr (.inr ⟨11, dr, sr1, src, rfl, by cases h; rfl⟩))))
  | lc3dOp12 dr sr1 src =>
    exact .inr (.inr (.inr (.inr (.inr ⟨12, dr, sr1, src, rfl, by cases h; rfl⟩))))
  | lc3dOp13 dr sr1 src =>
    exact .inr (.inr (.inr (.inr (.inr ⟨13, dr, sr1, src, rfl, by cases h; rfl⟩))))
  | lc3dOp14 dr sr1 src =>
    exact .inr (.inr (.inr (.inr (.inr ⟨14, dr, sr1, src, rfl, by cases h; rfl⟩))))
  | lc3dOp15 dr sr1 src =>
    exact .inr (.inr (.inr (.inr (.inr ⟨15, dr, sr1, src, rfl, by cases h; rfl⟩))))

/-- Every unassigned row fail-stops through the shared operation (R134). -/
theorem exec_ofUnassigned (k : Nat) (a : Addr) (s : State) : exec (Instr.ofUnassigned k a) s = enterHalted s := by
  unfold Instr.ofUnassigned
  split <;> rfl

/-- A property of all LC3D rows, by their opcode number. -/
theorem ofLc3d_induction {p : Opcode → Instr → Prop} {dr sr1 : RegNum} {src : Lc3Operand}
    (h : p 0 (.lc3dOp0 dr sr1 src) ∧ p 1 (.lc3dAdd dr sr1 src) ∧ p 2 (.lc3dOp2 dr sr1 src) ∧
      p 3 (.lc3dOp3 dr sr1 src) ∧ p 4 (.lc3dOp4 dr sr1 src) ∧ p 5 (.lc3dOp5 dr sr1 src) ∧
      p 6 (.lc3dOp6 dr sr1 src) ∧ p 7 (.lc3dOp7 dr sr1 src) ∧ p 8 (.lc3dOp8 dr sr1 src) ∧
      p 9 (.lc3dOp9 dr sr1 src) ∧ p 10 (.lc3dOp10 dr sr1 src) ∧ p 11 (.lc3dOp11 dr sr1 src) ∧
      p 12 (.lc3dOp12 dr sr1 src) ∧ p 13 (.lc3dOp13 dr sr1 src) ∧ p 14 (.lc3dOp14 dr sr1 src) ∧
      p 15 (.lc3dOp15 dr sr1 src)) (op : Opcode) : p op (Instr.ofLc3d op dr sr1 src) := by
  obtain ⟨h0, h1, h2, h3, h4, h5, h6, h7, h8, h9, h10, h11, h12, h13, h14, h15⟩ := h
  have key : ∀ n : Nat, n < 16 → p (BitVec.ofNat 4 n) (Instr.ofLc3d (BitVec.ofNat 4 n) dr sr1 src) := by
    intro n hn
    interval_cases n <;> assumption
  simpa using key op.toNat op.isLt

/-- Every LC3D row shows its outputs through the shared operation (R88). -/
theorem exec_ofLc3d (op : Opcode) (dr sr1 : RegNum) (src : Lc3Operand) (s : State) :
    exec (Instr.ofLc3d op dr sr1 src) s = showOutputs s (lc3dOutputs op dr sr1 src) :=
  ofLc3d_induction (p := fun o i => exec i s = showOutputs s (lc3dOutputs o dr sr1 src))
    ⟨rfl, rfl, rfl, rfl, rfl, rfl, rfl, rfl, rfl, rfl, rfl, rfl, rfl, rfl, rfl, rfl⟩ op

/-- An LC3D row is no TOY8 mnemonic (R59). -/
theorem ofLc3d_ne_ofMnemonic (op : Opcode) (dr sr1 : RegNum) (src : Lc3Operand) (m : Mnemonic) (a : Addr) :
    Instr.ofLc3d op dr sr1 src ≠ Instr.ofMnemonic m a := by
  cases m <;> unfold Instr.ofLc3d <;> split <;> simp [Instr.ofMnemonic]

/-- An LC3D row is no unassigned TOY8 opcode (R59). -/
theorem ofLc3d_ne_ofUnassigned (op : Opcode) (dr sr1 : RegNum) (src : Lc3Operand) (k : Nat) (a : Addr) :
    Instr.ofLc3d op dr sr1 src ≠ Instr.ofUnassigned k a := by
  unfold Instr.ofLc3d Instr.ofUnassigned
  split <;> split <;> simp

/-- When exec has no next state: only a reading instruction whose word has no value, and that is a refusal. -/
theorem exec_next_or_refused (i : Instr) (s : State) :
    (∃ t, exec i s = .next t) ∨
    ∃ a : Addr, (i = .load a ∨ i = .add a ∨ i = .sub a) ∧ s.mem.read a.toNat = none ∧
      exec i s = .refused (.unloadedMemory a.toNat) := by
  have read : ∀ (a : Addr) (k : Byte → Result), (∀ v, ∃ t, k v = .next t) →
      (∃ t, readThen s a.toNat k = .next t) ∨
      (s.mem.read a.toNat = none ∧ readThen s a.toNat k = .refused (.unloadedMemory a.toNat)) := by
    intro a k hk
    rw [readThen_addr]
    cases s.mem.read a.toNat with
    | none => exact .inr ⟨rfl, rfl⟩
    | some v => exact .inl (hk v)
  cases i with
  | load a =>
    rcases read a _ (fun v => ⟨_, rfl⟩) with h | ⟨h, e⟩
    · exact .inl h
    · exact .inr ⟨a, .inl rfl, h, e⟩
  | add a =>
    rcases read a _ (fun v => ⟨_, rfl⟩) with h | ⟨h, e⟩
    · exact .inl h
    · exact .inr ⟨a, .inr (.inl rfl), h, e⟩
  | sub a =>
    rcases read a _ (fun v => ⟨_, rfl⟩) with h | ⟨h, e⟩
    · exact .inl h
    · exact .inr ⟨a, .inr (.inr rfl), h, e⟩
  | store a =>
    left
    rw [exec, execStore, effectiveAddress_eq, writeThen_addr]
    exact ⟨_, rfl⟩
  | _ => exact .inl ⟨_, rfl⟩

/-- Every word decodes to an instruction of TOY8 (R50): one of the seven, or an unassigned one. -/
theorem decodeToy8_cases (P : Params) (w : Byte) :
    (∃ m, opcodeOf w = P.opc m ∧ decodeToy8 P w = Instr.ofMnemonic m (operandOf w)) ∨
    ((∀ m, opcodeOf w ≠ P.opc m) ∧ ∃ k, decodeToy8 P w = Instr.ofUnassigned k (operandOf w)) := by
  unfold decodeToy8
  cases e : P.mnemonicOf (opcodeOf w) with
  | none => exact .inr ⟨Params.mnemonicOf_eq_none.mp e, _, rfl⟩
  | some m =>
    have := List.find?_some e
    exact .inl ⟨m, by simpa using this, rfl⟩

/-- Fetch in one equation (R102, R166). -/
theorem fetchPhase_eq (s : State) :
    fetchPhase s =
      match s.mem.read s.pc.toNat with
      | some w => .next { s with ir := w, pc := s.pc + 1, phase := .decode, response := .status .ok }
      | none => .refused (.unloadedMemory s.pc.toNat) := by
  rw [fetchPhase, readThen_addr]
  simp only [State.setPc_succ]
  rfl

/-- Everything a step event can answer with a next state, by phase (R102, R103, R104, R107). -/
theorem stepEvent_next {P : Params} {s t : State} (h : stepEvent P s = .next t) :
    (s.phase = .fetch ∧ ∃ w, s.mem.read s.pc.toNat = some w ∧
      t = { s with ir := w, pc := s.pc + 1, phase := .decode, response := .status .ok }) ∨
    (s.phase = .decode ∧ t = { s with phase := .execute, response := .status .ok }) ∨
    (s.phase = .execute ∧ exec (decodeToy8 P s.ir) { s with response := .status .ok } = .next t) ∨
    (s.phase = .halted ∧ t = { s with response := .status .alreadyHalted }) := by
  unfold stepEvent at h
  split at h
  · obtain ⟨w, hw, e⟩ := readThen_next h
    rw [State.setPc_succ] at e
    exact .inl ⟨by assumption, w, hw, by cases e; rfl⟩
  · exact .inr (.inl ⟨by assumption, by cases h; rfl⟩)
  · exact .inr (.inr (.inl ⟨by assumption, h⟩))
  · exact .inr (.inr (.inr ⟨by assumption, by cases h; rfl⟩))

/-- The step of the machine when no host event is queued is the step event. -/
theorem stepWith_of_no_input {P : Params} {s : State} (h : s.inputs = []) : stepWith P s = stepEvent P s := by
  obtain ⟨pc, ir, ac, phase, mem, inputs, response⟩ := s
  subst h
  rfl

/-- A run of one step more, taken at its beginning. -/
theorem runWith_succ {P : Params} {n : Nat} {s t : State} (h : stepWith P s = .next t) :
    runWith P (n + 1) s = runWith P n t := by
  simp [runWith, h]

/-- A run of one step more, taken at its end. -/
theorem runWith_last (P : Params) (n : Nat) (s : State) :
    runWith P (n + 1) s =
      match runWith P n s with
      | .next t => stepWith P t
      | .fault r => .fault r
      | .refused r => .refused r := by
  induction n generalizing s with
  | zero => simp only [runWith]; cases stepWith P s <;> rfl
  | succ n ih =>
    rw [runWith]
    cases e : stepWith P s with
    | next t => rw [runWith_succ e]; exact ih t
    | fault r => simp [runWith, e]
    | refused r => simp [runWith, e]

end Sys2Proof.Machine
end

