-- ==== Sys2Proof/Laws/PerInstr.lean ====
section
/-! SUPPORT. Per instruction: its word has the width and the opcode bits that its row of spec/opcode_table.json fixes
(match and mask), with the default OPC the table uses. -/

namespace Sys2Proof.Laws.TableOpcode

open Sys2Proof Sys2Proof.Machine

/-- The width and the fixed opcode bits of an instruction's row. -/
def row : Instr → Nat × Nat
  | .halt _ => (8, 0)
  | .load _ => (8, 1)
  | .add _ => (8, 2)
  | .sub _ => (8, 3)
  | .store _ => (8, 4)
  | .jump _ => (8, 5)
  | .jumpIfZero _ => (8, 6)
  | .unassigned7 _ => (8, 7)
  | .unassigned8 _ => (8, 8)
  | .unassigned9 _ => (8, 9)
  | .unassigned10 _ => (8, 10)
  | .unassigned11 _ => (8, 11)
  | .unassigned12 _ => (8, 12)
  | .unassigned13 _ => (8, 13)
  | .unassigned14 _ => (8, 14)
  | .unassigned15 _ => (8, 15)
  | .lc3dOp0 _ _ _ => (16, 0)
  | .lc3dAdd _ _ _ => (16, 1)
  | .lc3dOp2 _ _ _ => (16, 2)
  | .lc3dOp3 _ _ _ => (16, 3)
  | .lc3dOp4 _ _ _ => (16, 4)
  | .lc3dOp5 _ _ _ => (16, 5)
  | .lc3dOp6 _ _ _ => (16, 6)
  | .lc3dOp7 _ _ _ => (16, 7)
  | .lc3dOp8 _ _ _ => (16, 8)
  | .lc3dOp9 _ _ _ => (16, 9)
  | .lc3dOp10 _ _ _ => (16, 10)
  | .lc3dOp11 _ _ _ => (16, 11)
  | .lc3dOp12 _ _ _ => (16, 12)
  | .lc3dOp13 _ _ _ => (16, 13)
  | .lc3dOp14 _ _ _ => (16, 14)
  | .lc3dOp15 _ _ _ => (16, 15)

/-- The width of a word and its four topmost bits. -/
def opcodeBits : CodeWord → Nat × Nat
  | .toy8 w => (8, w.toNat / 16)
  | .lc3d w => (16, w.toNat / 4096)

/-- The instruction's word agrees with its row. -/
def Statement (i : Instr) : Prop := opcodeBits (encode i) = row i

theorem toy8Word_opcode (op : Opcode) (a : Addr) : (toy8Word op a.toNat).toNat / 16 = op.toNat := by
  revert op a
  decide

theorem lc3dWord_opcode (op : Opcode) (dr sr1 : RegNum) (src : Lc3Operand) :
    (lc3dWord op dr sr1 src).toNat / 4096 = op.toNat := by
  have h0 := op.isLt
  have h1 := dr.isLt
  have h2 := sr1.isLt
  have h3 := src.mode.isLt
  have h4 := src.imm5.isLt
  simp only [lc3dWord, composeWord, packFields, mask_toNat, maskNat_natCast]
  omega

theorem halt (a : Addr) : Statement (.halt a) := congrArg (Prod.mk 8) (toy8Word_opcode 0 a)
theorem load (a : Addr) : Statement (.load a) := congrArg (Prod.mk 8) (toy8Word_opcode 1 a)
theorem add (a : Addr) : Statement (.add a) := congrArg (Prod.mk 8) (toy8Word_opcode 2 a)
theorem sub (a : Addr) : Statement (.sub a) := congrArg (Prod.mk 8) (toy8Word_opcode 3 a)
theorem store (a : Addr) : Statement (.store a) := congrArg (Prod.mk 8) (toy8Word_opcode 4 a)
theorem jump (a : Addr) : Statement (.jump a) := congrArg (Prod.mk 8) (toy8Word_opcode 5 a)
theorem jumpIfZero (a : Addr) : Statement (.jumpIfZero a) := congrArg (Prod.mk 8) (toy8Word_opcode 6 a)
theorem unassigned7 (a : Addr) : Statement (.unassigned7 a) := congrArg (Prod.mk 8) (toy8Word_opcode 7 a)
theorem unassigned8 (a : Addr) : Statement (.unassigned8 a) := congrArg (Prod.mk 8) (toy8Word_opcode 8 a)
theorem unassigned9 (a : Addr) : Statement (.unassigned9 a) := congrArg (Prod.mk 8) (toy8Word_opcode 9 a)
theorem unassigned10 (a : Addr) : Statement (.unassigned10 a) := congrArg (Prod.mk 8) (toy8Word_opcode 10 a)
theorem unassigned11 (a : Addr) : Statement (.unassigned11 a) := congrArg (Prod.mk 8) (toy8Word_opcode 11 a)
theorem unassigned12 (a : Addr) : Statement (.unassigned12 a) := congrArg (Prod.mk 8) (toy8Word_opcode 12 a)
theorem unassigned13 (a : Addr) : Statement (.unassigned13 a) := congrArg (Prod.mk 8) (toy8Word_opcode 13 a)
theorem unassigned14 (a : Addr) : Statement (.unassigned14 a) := congrArg (Prod.mk 8) (toy8Word_opcode 14 a)
theorem unassigned15 (a : Addr) : Statement (.unassigned15 a) := congrArg (Prod.mk 8) (toy8Word_opcode 15 a)
theorem lc3dOp0 (dr sr1 : RegNum) (src : Lc3Operand) : Statement (.lc3dOp0 dr sr1 src) :=
  congrArg (Prod.mk 16) (lc3dWord_opcode 0 dr sr1 src)
theorem lc3dAdd (dr sr1 : RegNum) (src : Lc3Operand) : Statement (.lc3dAdd dr sr1 src) :=
  congrArg (Prod.mk 16) (lc3dWord_opcode 1 dr sr1 src)
theorem lc3dOp2 (dr sr1 : RegNum) (src : Lc3Operand) : Statement (.lc3dOp2 dr sr1 src) :=
  congrArg (Prod.mk 16) (lc3dWord_opcode 2 dr sr1 src)
theorem lc3dOp3 (dr sr1 : RegNum) (src : Lc3Operand) : Statement (.lc3dOp3 dr sr1 src) :=
  congrArg (Prod.mk 16) (lc3dWord_opcode 3 dr sr1 src)
theorem lc3dOp4 (dr sr1 : RegNum) (src : Lc3Operand) : Statement (.lc3dOp4 dr sr1 src) :=
  congrArg (Prod.mk 16) (lc3dWord_opcode 4 dr sr1 src)
theorem lc3dOp5 (dr sr1 : RegNum) (src : Lc3Operand) : Statement (.lc3dOp5 dr sr1 src) :=
  congrArg (Prod.mk 16) (lc3dWord_opcode 5 dr sr1 src)
theorem lc3dOp6 (dr sr1 : RegNum) (src : Lc3Operand) : Statement (.lc3dOp6 dr sr1 src) :=
  congrArg (Prod.mk 16) (lc3dWord_opcode 6 dr sr1 src)
theorem lc3dOp7 (dr sr1 : RegNum) (src : Lc3Operand) : Statement (.lc3dOp7 dr sr1 src) :=
  congrArg (Prod.mk 16) (lc3dWord_opcode 7 dr sr1 src)
theorem lc3dOp8 (dr sr1 : RegNum) (src : Lc3Operand) : Statement (.lc3dOp8 dr sr1 src) :=
  congrArg (Prod.mk 16) (lc3dWord_opcode 8 dr sr1 src)
theorem lc3dOp9 (dr sr1 : RegNum) (src : Lc3Operand) : Statement (.lc3dOp9 dr sr1 src) :=
  congrArg (Prod.mk 16) (lc3dWord_opcode 9 dr sr1 src)
theorem lc3dOp10 (dr sr1 : RegNum) (src : Lc3Operand) : Statement (.lc3dOp10 dr sr1 src) :=
  congrArg (Prod.mk 16) (lc3dWord_opcode 10 dr sr1 src)
theorem lc3dOp11 (dr sr1 : RegNum) (src : Lc3Operand) : Statement (.lc3dOp11 dr sr1 src) :=
  congrArg (Prod.mk 16) (lc3dWord_opcode 11 dr sr1 src)
theorem lc3dOp12 (dr sr1 : RegNum) (src : Lc3Operand) : Statement (.lc3dOp12 dr sr1 src) :=
  congrArg (Prod.mk 16) (lc3dWord_opcode 12 dr sr1 src)
theorem lc3dOp13 (dr sr1 : RegNum) (src : Lc3Operand) : Statement (.lc3dOp13 dr sr1 src) :=
  congrArg (Prod.mk 16) (lc3dWord_opcode 13 dr sr1 src)
theorem lc3dOp14 (dr sr1 : RegNum) (src : Lc3Operand) : Statement (.lc3dOp14 dr sr1 src) :=
  congrArg (Prod.mk 16) (lc3dWord_opcode 14 dr sr1 src)
theorem lc3dOp15 (dr sr1 : RegNum) (src : Lc3Operand) : Statement (.lc3dOp15 dr sr1 src) :=
  congrArg (Prod.mk 16) (lc3dWord_opcode 15 dr sr1 src)

end Sys2Proof.Laws.TableOpcode
end

