-- ==== Sys2Proof/Laws/Step.lean ====
section
/-! SUPPORT. Everything one event of the machine can do, said once: the full inversion of the step event by phase and
opcode, of a load, and of the machine's step. -/

namespace Sys2Proof.Machine

/-- What exec of one of the seven instructions can answer with a next state (R120 to R132). -/
theorem exec_ofMnemonic_next {m : Mnemonic} {a : Addr} {s t : State}
    (h : exec (Instr.ofMnemonic m a) s = .next t) :
    (m = .load ∧ ∃ v, s.mem.read a.toNat = some v ∧ t = { s with ac := v, phase := .fetch }) ∨
    (m = .add ∧ ∃ v, s.mem.read a.toNat = some v ∧ t = { s with ac := s.ac + v, phase := .fetch }) ∨
    (m = .sub ∧ ∃ v, s.mem.read a.toNat = some v ∧ t = { s with ac := s.ac - v, phase := .fetch }) ∨
    (m = .store ∧ t = { s with mem := s.mem.write a.toNat s.ac, phase := .fetch }) ∨
    (m = .jump ∧ t = { s with pc := a, phase := .fetch }) ∨
    (m = .jumpIfZero ∧ t = { s with pc := if s.ac = 0 then a else s.pc, phase := .fetch }) ∨
    (m = .halt ∧ t = { s with phase := .halted }) := by
  cases m
  all_goals simp only [Instr.ofMnemonic, exec, execLoad_eq, execAdd_eq, execSub_eq, execStore_eq, execJump_eq,
    execJumpIfZero_eq, execHalt, enterHalted] at h
  case load | add | sub =>
    split at h
    · cases h
      simp_all
    · cases h
  all_goals
    cases h
    simp [State.setPhase]

/-- What the Execute step can answer: the instruction of the word in IR, or the fail-stop (R104). -/
theorem exec_decodeToy8_next {P : Params} {s t : State} (h : exec (decodeToy8 P s.ir) s = .next t) :
    (∃ m, opcodeOf s.ir = P.opc m ∧ exec (Instr.ofMnemonic m (operandOf s.ir)) s = .next t) ∨
    ((∀ m, opcodeOf s.ir ≠ P.opc m) ∧ t = { s with phase := .halted }) := by
  rcases decodeToy8_cases P s.ir with ⟨m, hm, e⟩ | ⟨hm, k, e⟩
  · exact .inl ⟨m, hm, e ▸ h⟩
  · rw [e, exec_ofUnassigned] at h
    cases h
    exact .inr ⟨hm, rfl⟩

/-- The step event in full: one case per phase and, in Execute, per instruction (R108). -/
theorem stepEvent_cases {P : Params} {s t : State} (h : stepEvent P s = .next t) :
    (s.phase = .fetch ∧ ∃ w, s.mem.read s.pc.toNat = some w ∧
      t = { s with ir := w, pc := s.pc + 1, phase := .decode, response := .status .ok }) ∨
    (s.phase = .decode ∧ t = { s with phase := .execute, response := .status .ok }) ∨
    (s.phase = .halted ∧ t = { s with response := .status .alreadyHalted }) ∨
    (s.phase = .execute ∧ (∀ m, opcodeOf s.ir ≠ P.opc m) ∧
      t = { s with phase := .halted, response := .status .ok }) ∨
    (s.phase = .execute ∧ opcodeOf s.ir = P.opc .halt ∧
      t = { s with phase := .halted, response := .status .ok }) ∨
    (s.phase = .execute ∧ opcodeOf s.ir = P.opc .load ∧ ∃ v, s.mem.read (operandOf s.ir).toNat = some v ∧
      t = { s with ac := v, phase := .fetch, response := .status .ok }) ∨
    (s.phase = .execute ∧ opcodeOf s.ir = P.opc .add ∧ ∃ v, s.mem.read (operandOf s.ir).toNat = some v ∧
      t = { s with ac := s.ac + v, phase := .fetch, response := .status .ok }) ∨
    (s.phase = .execute ∧ opcodeOf s.ir = P.opc .sub ∧ ∃ v, s.mem.read (operandOf s.ir).toNat = some v ∧
      t = { s with ac := s.ac - v, phase := .fetch, response := .status .ok }) ∨
    (s.phase = .execute ∧ opcodeOf s.ir = P.opc .store ∧
      t = { s with mem := s.mem.write (operandOf s.ir).toNat s.ac, phase := .fetch, response := .status .ok }) ∨
    (s.phase = .execute ∧ opcodeOf s.ir = P.opc .jump ∧
      t = { s with pc := operandOf s.ir, phase := .fetch, response := .status .ok }) ∨
    (s.phase = .execute ∧ opcodeOf s.ir = P.opc .jumpIfZero ∧
      t = { s with pc := if s.ac = 0 then operandOf s.ir else s.pc, phase := .fetch, response := .status .ok }) := by
  rcases stepEvent_next h with h | h | ⟨hp, h⟩ | h
  · exact .inl h
  · exact .inr (.inl h)
  · rcases exec_decodeToy8_next (s := { s with response := .status .ok }) h with ⟨m, hm, h⟩ | ⟨hm, rfl⟩
    · rcases exec_ofMnemonic_next h with ⟨rfl, v, hv, rfl⟩ | ⟨rfl, v, hv, rfl⟩ | ⟨rfl, v, hv, rfl⟩ | ⟨rfl, rfl⟩ |
        ⟨rfl, rfl⟩ | ⟨rfl, rfl⟩ | ⟨rfl, rfl⟩ <;> simp_all
    · simp_all
  · exact .inr (.inr (.inl h))

/-- When a step event has no next state: only where the word it reads has no value, and that is a refusal (R166). -/
theorem stepEvent_next_or_refused (P : Params) (s : State) :
    (∃ t, stepEvent P s = .next t) ∨
    ∃ a : Addr, stepAccess P s = .read a ∧ s.mem.read a.toNat = none ∧
      stepEvent P s = .refused (.unloadedMemory a.toNat) := by
  unfold stepEvent stepAccess
  cases s.phase with
  | fetch =>
    simp only [fetchPhase_eq]
    cases e : s.mem.read s.pc.toNat with
    | some w => exact .inl ⟨_, rfl⟩
    | none => exact .inr ⟨s.pc, rfl, e, rfl⟩
  | decode => exact .inl ⟨_, rfl⟩
  | execute =>
    rcases exec_next_or_refused (decodeToy8 P s.ir) (s.respond (.status .ok)) with h | ⟨a, hi, h, e⟩
    · exact .inl h
    · refine .inr ⟨a, ?_, h, e⟩
      rcases hi with hi | hi | hi <;> simp only [hi, instrAccess]
  | halted => exact .inl ⟨_, rfl⟩

/-- What a load can answer with a next state (R163). -/
theorem loadEvent_next {P : Params} {words : List Int} {s t : State} (h : loadEvent P words s = .next t) :
    words.length ≤ 16 ∧ t = { s with pc := 0, ir := 0, ac := 0, phase := .fetch, response := .none,
                                     mem := Memory.ofImage (imageWord P words) } := by
  unfold loadEvent at h
  split at h
  · rename_i hw
    cases h
    exact ⟨of_decide_eq_true hw, rfl⟩
  · cases h

/-- What the machine's step can answer with a next state, by the event it performs (R165, R179). -/
theorem stepWith_next {P : Params} {s t : State} (h : stepWith P s = .next t) :
    (nextEvent s = .step ∧ stepEvent P (s.setInputs s.inputs.tail) = .next t) ∨
    (nextEvent s = .reset ∧ t = resetEvent (s.setInputs s.inputs.tail)) ∨
    (∃ words, nextEvent s = .load words ∧ loadEvent P words (s.setInputs s.inputs.tail) = .next t) ∨
    (∃ source, nextEvent s = .assemble source ∧ assembleEvent P source (s.setInputs s.inputs.tail) = .next t) ∨
    (∃ w, nextEvent s = .decode w ∧ ∃ o, t = { s with inputs := s.inputs.tail, response := .lc3d o }) := by
  unfold stepWith at h
  cases e : nextEvent s with
  | step => rw [e] at h; exact .inl ⟨rfl, h⟩
  | reset => rw [e] at h; cases h; exact .inr (.inl ⟨rfl, rfl⟩)
  | load words => rw [e] at h; exact .inr (.inr (.inl ⟨words, rfl, h⟩))
  | assemble source => rw [e] at h; exact .inr (.inr (.inr (.inl ⟨source, rfl, h⟩)))
  | decode w =>
    rw [e, perform, decodeLc3d, exec_ofLc3d] at h
    cases h
    exact .inr (.inr (.inr (.inr ⟨w, rfl, _, rfl⟩)))

end Sys2Proof.Machine
end

