-- ==== Sys2Proof/Tests/Slice0.lean ====
section
/-! SUPPORT. Tests. Expected values are those of spec/95_test_vectors.md (the vector is named in each docstring) or of the
rule named; and one witness for every statement that has hypotheses. -/

namespace Sys2Proof.Tests

open Sys2Proof.Machine

/-- A small state: phase, PC, IR, AC and the memory words that have a value. -/
def st (phase : Phase) (pc : Addr) (ir ac : Byte) (mem : Memory) : State :=
  { State.reset with phase := phase, pc := pc, ir := ir, ac := ac, mem := mem }

/-- The next state of an outcome, if it has one. -/
def nextOf (r : Result) : Option State :=
  match r with
  | .next t => some t
  | .fault _ => none
  | .refused _ => none

/-- The registers and phase of the next state of an outcome. -/
def regsOf (r : Result) : Option (Addr × Byte × Byte × Phase) :=
  (nextOf r).map fun t => (t.pc, t.ir, t.ac, t.phase)

/-- One memory word of the next state of an outcome. -/
def wordOf (a : Nat) (r : Result) : Option Byte := (nextOf r).bind fun t => t.mem.read a

/-- One step event in Execute with the default parameters. -/
def execute (pc : Addr) (ir ac : Byte) (mem : Memory) : Result := stepEvent Params.default (st .execute pc ir ac mem)

/-- A line of source. -/
def line (text : String) : List Char := text.toList

/-- A memory with a word at every address. -/
def full : Memory := Memory.ofImage fun _ => 0

/-! ### Well-formedness -/

/-- R57: an immediate outside -16..15 is ill-formed. -/
theorem test_wf_immediate :
    Instr.wf (.lc3dAdd 0 0 (.imm 16)) = false ∧ Instr.wf (.lc3dOp15 0 0 (.imm (-17))) = false ∧
    Instr.wf (.lc3dAdd 0 0 (.imm 15)) = true ∧ Instr.wf (.lc3dOp2 0 0 (.imm (-16))) = true ∧
    Instr.wf (.lc3dOp9 0 0 (.raw 31)) = true := by decide

/-- R5: a map that is not injective, and a data base above 16, are ill-formed. -/
theorem test_wf_params :
    Params.wf { Params.default with opc := fun _ => 0 } = false ∧
    Params.wf { Params.default with dataBase := 17 } = false ∧
    Params.wf { Params.default with dataBase := 16 } = true ∧ Params.wf Params.default = true := by decide

/-- R34: a list of 17 words is ill-formed. -/
theorem test_wf_load_list : loadListWf (List.replicate 17 0) = false ∧ loadListWf (List.replicate 16 0) = true := by
  decide

/-- The canonical form refuses an unsorted list, a repeated address and an address of 16. -/
theorem test_wf_memory :
    ¬ Memory.wf [(3, 0), (2, 0)] ∧ ¬ Memory.wf [(3, 0), (3, 1)] ∧ ¬ Memory.wf [(16, 0)] ∧ Memory.wf [(2, 0), (15, 1)] := by
  decide

/-! ### Decoding: words written out from R53, R54 and R56 -/

/-- Q1 to Q8. -/
theorem test_decode_assigned :
    decodeTableWord 8 0b00000000 = some (.halt 0) ∧ decodeTableWord 8 0b00000101 = some (.halt 5) ∧
    decodeTableWord 8 0b00011110 = some (.load 14) ∧ decodeTableWord 8 0b00101111 = some (.add 15) ∧
    decodeTableWord 8 0b00111011 = some (.sub 11) ∧ decodeTableWord 8 0b01001101 = some (.store 13) ∧
    decodeTableWord 8 0b01010010 = some (.jump 2) ∧ decodeTableWord 8 0b01101010 = some (.jumpIfZero 10) := by decide

/-- Q9, Q10 and the rows between them (R54). -/
theorem test_decode_unassigned :
    decodeTableWord 8 0b01110000 = some (.unassigned7 0) ∧ decodeTableWord 8 0b10000001 = some (.unassigned8 1) ∧
    decodeTableWord 8 0b10010010 = some (.unassigned9 2) ∧ decodeTableWord 8 0b10100100 = some (.unassigned10 4) ∧
    decodeTableWord 8 0b10111000 = some (.unassigned11 8) ∧ decodeTableWord 8 0b11000011 = some (.unassigned12 3) ∧
    decodeTableWord 8 0b11010110 = some (.unassigned13 6) ∧ decodeTableWord 8 0b11101100 = some (.unassigned14 12) ∧
    decodeTableWord 8 0b11111111 = some (.unassigned15 15) := by decide

/-- L1 to L5 and the rows 2 to 7, with the fields of R56. -/
theorem test_decode_lc3d_low :
    decodeTableWord 16 0b0001010001100101 = some (.lc3dAdd 2 1 (.imm 5)) ∧
    decodeTableWord 16 0b0001111111111111 = some (.lc3dAdd 7 7 (.imm (-1))) ∧
    decodeTableWord 16 0b0001001001110000 = some (.lc3dAdd 1 1 (.imm (-16))) ∧
    decodeTableWord 16 0b0001000001000010 = some (.lc3dAdd 0 1 (.raw 2)) ∧
    decodeTableWord 16 0b0000000000000000 = some (.lc3dOp0 0 0 (.raw 0)) ∧
    decodeTableWord 16 0b0010001010000011 = some (.lc3dOp2 1 2 (.raw 3)) ∧
    decodeTableWord 16 0b0011100011100001 = some (.lc3dOp3 4 3 (.imm 1)) ∧
    decodeTableWord 16 0b0100110101010000 = some (.lc3dOp4 6 5 (.raw 16)) ∧
    decodeTableWord 16 0b0101011100101111 = some (.lc3dOp5 3 4 (.imm 15)) ∧
    decodeTableWord 16 0b0110101110011111 = some (.lc3dOp6 5 6 (.raw 31)) ∧
    decodeTableWord 16 0b0111111000111110 = some (.lc3dOp7 7 0 (.imm (-2))) := by decide

/-- L6, L7 and the rows 8 to 14. -/
theorem test_decode_lc3d_high :
    decodeTableWord 16 0b1000000111000100 = some (.lc3dOp8 0 7 (.raw 4)) ∧
    decodeTableWord 16 0b1001001000101000 = some (.lc3dOp9 1 0 (.imm 8)) ∧
    decodeTableWord 16 0b1010010001000101 = some (.lc3dOp10 2 1 (.raw 5)) ∧
    decodeTableWord 16 0b1011011010110001 = some (.lc3dOp11 3 2 (.imm (-15))) ∧
    decodeTableWord 16 0b1100100011000000 = some (.lc3dOp12 4 3 (.raw 0)) ∧
    decodeTableWord 16 0b1101101100100000 = some (.lc3dOp13 5 4 (.imm 0)) ∧
    decodeTableWord 16 0b1110110101011110 = some (.lc3dOp14 6 5 (.raw 30)) ∧
    decodeTableWord 16 0b1111111111111111 = some (.lc3dOp15 7 7 (.imm (-1))) ∧
    decodeTableWord 16 0b1111000000100101 = some (.lc3dOp15 0 0 (.imm 5)) := by decide

/-- A width that no format has is rejected by name. -/
theorem test_decode_width :
    decodeTableWord 12 0x1E = none ∧ decodeBits Params.default 12 0x1E = .error (.noFormatOfWidth 12) := by
  constructor
  · decide
  · rfl

/-- L8 and the example of R90, as words. -/
theorem test_encode :
    encode (.lc3dAdd 0 0 (.imm 15)) = .lc3d 0x102F ∧ encode (.lc3dAdd 7 7 (.imm (-1))) = .lc3d 0x1FFF ∧
    encode (.load 14) = .toy8 0x1E ∧ encode (.unassigned15 15) = .toy8 0xFF := by decide

/-! ### Bit-field functions -/

/-- X8, X10, X12. -/
theorem test_extractField :
    extractField 16 0xFFFF 8 6 = some 7 ∧ extractField 16 0x1465 15 0 = some 0x1465 ∧ extractField 8 0xA5 3 5 = none := by
  decide

/-- E4, E9, E12, E14. -/
theorem test_signExtend :
    signExtend 16 5 = some (-16) ∧ signExtend 0xFF 8 = some (-1) ∧ signExtend 37 5 = some 5 ∧ signExtend 1 0 = none := by
  decide

/-- K5, K7, K11, K12. -/
theorem test_composeWord :
    composeWord 8 [(0x1F, 4), (0, 4)] = 0xF0 ∧ composeWord 16 [(1, 4), (2, 3), (1, 3), (1, 1), (5, 5)] = 0x1465 ∧
    composeWord 8 [(5, 4)] = 0x05 ∧ composeWord 8 [(1, 4), (2, 4), (3, 4)] = 0x23 := by decide

/-! ### Single steps -/

/-- T2: Fetch at 15 wraps PC to 0. -/
theorem test_fetch_wraps :
    regsOf (stepEvent Params.default (st .fetch 15 0x2D 0x90 [(15, 0x03)])) = some (0, 0x03, 0x90, .decode) := by decide

/-- T3: Decode changes only PHASE. -/
theorem test_decode_phase :
    regsOf (stepEvent Params.default (st .decode 1 0x1E 0x07 [])) = some (1, 0x1E, 0x07, .execute) := by decide

/-- T4 and T5. -/
theorem test_load :
    regsOf (execute 1 0x1E 0x07 [(14, 0x05)]) = some (1, 0x1E, 0x05, .fetch) ∧
    regsOf (execute 1 0x10 0x00 [(0, 0x10)]) = some (1, 0x10, 0x10, .fetch) := by decide

/-- T7 and T8. -/
theorem test_add :
    regsOf (execute 1 0x2D 0xC8 [(13, 0x64)]) = some (1, 0x2D, 0x2C, .fetch) ∧
    regsOf (execute 1 0x2D 0xFF [(13, 0x01)]) = some (1, 0x2D, 0x00, .fetch) := by decide

/-- T10 and T11: AC is the minuend. -/
theorem test_sub :
    regsOf (execute 1 0x3F 0x05 [(15, 0x03)]) = some (1, 0x3F, 0x02, .fetch) ∧
    regsOf (execute 1 0x3E 0x03 [(14, 0x05)]) = some (1, 0x3E, 0xFE, .fetch) := by decide

/-- T20: a STORE to its own address. -/
theorem test_store :
    nextOf (execute 2 0x41 0x70 [(1, 0x41), (3, 0x09)]) =
      some { st .fetch 2 0x41 0x70 [(1, 0x70), (3, 0x09)] with response := .status .ok } := by decide

/-- T17: JUMP. -/
theorem test_jump : regsOf (execute 4 0x51 0x08 []) = some (1, 0x51, 0x08, .fetch) := by decide

/-- T13 and T15: 128 is not zero. -/
theorem test_jump_if_zero :
    regsOf (execute 2 0x65 0x00 []) = some (5, 0x65, 0x00, .fetch) ∧
    regsOf (execute 2 0x65 0x80 []) = some (2, 0x65, 0x80, .fetch) := by decide

/-- T22: the operand of HALT is ignored; the status is Ok. -/
theorem test_halt :
    nextOf (execute 4 0x0F 0x08 []) = some { st .halted 4 0x0F 0x08 [] with response := .status .ok } := by decide

/-- T23 and T24: the fail-stop. -/
theorem test_unassigned :
    nextOf (execute 3 0x70 0x70 [(2, 0x70)]) = some { st .halted 3 0x70 0x70 [(2, 0x70)] with response := .status .ok } ∧
    regsOf (execute 3 0xFF 0x01 []) = some (3, 0xFF, 0x01, .halted) := by decide

/-- T25: a step in Halted. -/
theorem test_halted :
    nextOf (step (st .halted 4 0x00 0x08 [(13, 0x08)])) =
      some { st .halted 4 0x00 0x08 [(13, 0x08)] with response := .status .alreadyHalted } := by decide

/-- L3 and L4: the outputs of the LC3D unit. -/
theorem test_lc3d_outputs :
    (nextOf (perform Params.default (.decode 0x1270) State.reset)).map State.response =
      some (.lc3d ⟨1, 1, 1, 1, 16, some (-16)⟩) ∧
    (nextOf (perform Params.default (.decode 0x1042) State.reset)).map State.response =
      some (.lc3d ⟨1, 0, 1, 0, 2, none⟩) := by decide

/-- R57, R89: the 16-bit pattern of an immediate, and the names. -/
theorem test_lc3d_name :
    (lc3dOutputs 1 1 1 (.imm (-16))).imm16 = some 0xFFF0 ∧ (lc3dOutputs 1 0 0 (.raw 0)).name = some "ADD" ∧
    (lc3dOutputs 5 0 0 (.imm 1)).name = none := by decide

/-! ### Host events -/

/-- T26: reset keeps memory. -/
theorem test_reset :
    nextOf (perform Params.default .reset (st .halted 4 0x01 0x08 [(13, 0x08)])) = some (st .fetch 0 0 0 [(13, 0x08)]) := by
  decide

/-- T27 with a list completed by R34: words are masked, the rest is zero, then DATA_SEED. -/
theorem test_load_event :
    nextOf (perform Params.default (.load [0x1E, -1, 256]) (st .halted 4 0x01 0x08 [])) =
      some (st .fetch 0 0 0 [(0, 0x1E), (1, 0xFF), (2, 0), (3, 0), (4, 0), (5, 0), (6, 0), (7, 0), (8, 0), (9, 0),
        (10, 0), (11, 0), (12, 0), (13, 0), (14, 5), (15, 3)]) := by decide

/-- R34: 17 words are refused. -/
theorem test_load_too_long :
    perform Params.default (.load (List.replicate 17 0)) State.reset = .refused (.imageTooLong 17) := rfl

/-- R166: the core does not step from memory that was never loaded. -/
theorem test_step_before_load : step State.reset = .refused (.unloadedMemory 0) := rfl

/-- S4 with the events queued: load, then HALT in three steps. -/
theorem test_halt_only_program :
    regsOf (runWith Params.default 4 { State.reset with inputs := [.assemble [line "HALT"]] }) =
      some (1, 0, 0, .halted) := by decide

/-- The very next step runs a placed TOY8 word (T4) and a placed LC3D word (L1). -/
theorem test_withFetchWord :
    regsOf (step (State.reset.withFetchWord 8 0x1E)) = some (1, 0x1E, 0x05, .fetch) ∧
    (nextOf (step (State.reset.withFetchWord 16 0x1465))).map State.response =
      some (.lc3d ⟨1, 2, 1, 1, 5, some 5⟩) := by decide

/-! ### Assembler -/

/-- The worked example of section 5 of 30_encoding.md (S5, P1). -/
theorem test_assemble_example :
    assemble Params.default [line "LOAD 14", line "ADD 15", line "STORE 13", line "HALT"] =
      [0x1E, 0x2F, 0x4D, 0x00, 0, 0, 0, 0, 0, 0, 0, 0, 0, 0, 5, 3] := by decide

/-- P5, whose lines are A12 to A14 and A17 in kind; A3. -/
theorem test_assemble_lenient :
    assembleWords Params.default [line "; sum two cells", line "  load 14 ; get a", line "MOVE 3", line "",
      line "ADD 31", line "Store 13 extra", line "halt"] = [0x1E, 0x2F, 0x4D, 0x00] := by decide

/-- A5, A6, A8, A9, A15, A16. -/
theorem test_assemble_operands :
    assembleWords Params.default [line "HALT 5", line "LOAD 20", line "LOAD", line "JUMP_IF_ZERO 10", line "LOAD -1",
      line "LOAD x"] = [0x05, 0x14, 0x10, 0x6A, 0x1F, 0x10] := by decide

/-- A19: the fifteenth line is dropped. -/
theorem test_assemble_region_full :
    assemble Params.default (List.replicate 15 (line "HALT 1")) = List.replicate 14 0x01 ++ [5, 3] := by decide

/-- R73: the canonical text. -/
theorem test_listing :
    listing Params.default 0x1E = .text (line "LOAD 14") ∧ listing Params.default 0x00 = .text (line "HALT") ∧
    listing Params.default 0x70 = .number 0x70 := by decide

/-! ### Witnesses: the hypotheses of each statement can be met, each clause at a boundary -/

theorem witness_ExtractFieldReadsBits :
    (255 < 2 ^ 8 ∧ 0 ≤ 7 ∧ 7 < 8 ∧ extractField 8 255 7 0 = some 255) ∧
    (extractField 8 255 0 1 = none ∧ extractField 8 255 8 0 = none) ∧
    extractField 8 256 0 0 = some 0 := by decide

theorem witness_SignExtendIsSignedValue :
    signExtend 1 0 = none ∧ signExtend 1 1 = some (-1) ∧ signExtend 127 8 = some 127 ∧ signExtend 128 8 = some (-128) := by
  decide

theorem witness_SignExtendLaws :
    (1 ≤ 1 ∧ 1 < 2 ^ 1 ∧ Nat.testBit 1 (1 - 1) = true) ∧ (0 < 2 ^ 1 ∧ Nat.testBit 0 (1 - 1) = false) := by decide

/-- The widths after the first field sum to W; all the widths sum to W; and to less. -/
theorem witness_ComposeWordMasksFields :
    (4 ≤ ([((2 : Int), 4)].map Prod.snd).sum ∧ composeWord 4 [(1, 4), (2, 4)] = 2) ∧
    (4 + ([((14 : Int), 4)].map Prod.snd).sum ≤ 8 ∧ composeWord 8 [(1, 4), (14, 4)] = 0x1E) ∧
    (4 + (([] : List (Int × Nat)).map Prod.snd).sum ≤ 8 ∧ composeWord 8 [(0x15, 4)] = 0x05) := by decide

theorem witness_ComposeDecomposeRoundTrip :
    ∃ (W w : Nat) (layout fs : List Nat), (∀ n ∈ layout, 0 < n) ∧ layout.sum = W ∧ w < 2 ^ W ∧
      fs.length = layout.length ∧ ∀ c ∈ fs.zip layout, c.1 < 2 ^ c.2 :=
  ⟨16, 0xFFFF, [4, 3, 3, 1, 5], [15, 7, 0, 1, 31], by decide⟩

theorem witness_paramsWf : ∃ P : Params, P.wf := ⟨Params.default, by decide⟩

theorem witness_Toy8EncodingIsOpcodeThenOperand : ∃ P : Params, P.wf := witness_paramsWf

theorem witness_DecodeEncodeRoundTrip :
    ∃ P : Params, P.wf ∧ (Instr.lc3dAdd 7 7 (.imm (-16))).wf ∧ (Instr.lc3dOp0 0 0 (.raw 31)).wf ∧ (Instr.jump 15).wf :=
  ⟨Params.default, by decide⟩

theorem witness_EncodeDecodeRoundTrip : ∃ P : Params, P.wf := witness_paramsWf

theorem witness_WordsSplitInto112And144 : ∃ P : Params, P.wf := witness_paramsWf

theorem witness_MemoryReadAfterWrite :
    ∃ m : Memory, m.wf ∧ (m.write 15 7).read 15 = some 7 ∧ (m.write 15 7).read 14 = m.read 14 :=
  ⟨[(0, 1), (15, 2)], by decide⟩

theorem witness_EqualReadsMakeEqualMemories :
    ∃ m n : Memory, m.wf ∧ n.wf ∧ ∀ a : Addr, m.read a.toNat = n.read a.toNat :=
  ⟨[(0, 1), (15, 2)], [(0, 1), (15, 2)], by decide⟩

/-- A read, a write and no access; and another memory that agrees on the word read. -/
theorem witness_OneAccessPerStep :
    Params.default.wf ∧
    (∃ s t m, stepEvent Params.default s = .next t ∧ stepAccess Params.default s = .read 15 ∧ m ≠ s.mem ∧
      Memory.read m 15 = s.mem.read 15) ∧
    (∃ s t, stepEvent Params.default s = .next t ∧ stepAccess Params.default s = .write 15 7) ∧
    (∃ s t, stepEvent Params.default s = .next t ∧ stepAccess Params.default s = .none) :=
  ⟨by decide, ⟨st .fetch 15 0 0 [(15, 3)], _, [(0, 1), (15, 3)], rfl, rfl, by decide, rfl⟩,
    ⟨st .execute 0 0x4F 7 [], _, rfl, rfl⟩, ⟨st .decode 0 0 0 [], _, rfl, rfl⟩⟩

theorem witness_OnlyStoreAndLoadWriteMemory :
    Params.default.wf ∧
    (∃ s t, stepWith Params.default s = .next t ∧ t.mem ≠ s.mem ∧ nextEvent s = .step) ∧
    (∃ s t, stepWith Params.default s = .next t ∧ t.mem ≠ s.mem ∧ nextEvent s = .load []) ∧
    (∃ s t, stepWith Params.default s = .next t ∧ t.mem ≠ s.mem ∧ nextEvent s = .assemble []) :=
  ⟨by decide, ⟨st .execute 0 0x4F 7 [], _, rfl, by decide, rfl⟩,
    ⟨{ State.reset with inputs := [.load []] }, _, rfl, by decide, rfl⟩,
    ⟨{ State.reset with inputs := [.assemble []] }, _, rfl, by decide, rfl⟩⟩

theorem witness_StoreIsSeenByNextFetch :
    ∃ s : State, Params.default.wf ∧ s.phase = .execute ∧ s.inputs = [] ∧
      opcodeOf s.ir = Params.default.opc .store ∧ operandOf s.ir = s.pc :=
  ⟨st .execute 15 0x4F 7 [], by decide⟩

theorem witness_LoadResult : ∃ (s : State) (a : Addr) (v : Byte), s.mem.read a.toNat = some v :=
  ⟨st .execute 0 0x1F 0 [(15, 255)], 15, 255, by decide⟩

theorem witness_AddResult : ∃ (s : State) (a : Addr) (v : Byte), s.mem.read a.toNat = some v :=
  ⟨st .execute 0 0x2F 255 [(15, 255)], 15, 255, by decide⟩

theorem witness_SubResult : ∃ (s : State) (a : Addr) (v : Byte), s.mem.read a.toNat = some v :=
  ⟨st .execute 0 0x30 0 [(0, 255)], 0, 255, by decide⟩

/-- 255 + 255 and 0 - 255. -/
theorem witness_ArithmeticIsRightForBothReadings :
    (∃ (s t : State) (v : Byte), s.mem.read (15 : Addr).toNat = some v ∧ exec (.add 15) s = .next t ∧ t.ac = 254) ∧
    (∃ (s t : State) (v : Byte), s.mem.read (15 : Addr).toNat = some v ∧ exec (.sub 15) s = .next t ∧ t.ac = 1) :=
  ⟨⟨st .execute 0 0x2F 255 [(15, 255)], _, 255, by decide, rfl, by decide⟩,
    ⟨st .execute 0 0x3F 0 [(15, 255)], _, 255, by decide, rfl, by decide⟩⟩

theorem witness_UnloadedReadIsRefused : ∃ (s : State) (a : Addr), s.mem.read a.toNat = none :=
  ⟨st .execute 0 0x1F 0 [(14, 1)], 15, by decide⟩

/-- Each of the seven instructions has a next state. -/
theorem witness_Toy8InstructionFrame : ∀ m : Mnemonic, ∃ s t, exec (Instr.ofMnemonic m 15) s = .next t := by
  intro m
  refine ⟨st .execute 0 0 0 [(15, 1)], ?_⟩
  cases m <;> exact ⟨_, rfl⟩

theorem witness_JumpIfZeroResult : ∃ s t : State, s.ac = 0 ∧ t.ac ≠ 0 :=
  ⟨st .execute 2 0x65 0 [], st .execute 2 0x65 255 [], by decide⟩

theorem witness_HaltResult :
    ∃ s : State, Params.default.wf ∧ s.phase = .execute ∧ s.inputs = [] ∧ opcodeOf s.ir = Params.default.opc .halt :=
  ⟨st .execute 4 0x0F 8 [], by decide⟩

/-- The lowest and the highest unassigned opcode number. -/
theorem witness_UnknownOpcodeStepFailStops :
    (∃ s : State, s.phase = .execute ∧ s.inputs = [] ∧ s.ir = 0x70 ∧ ∀ m, opcodeOf s.ir ≠ Params.default.opc m) ∧
    (∃ s : State, s.phase = .execute ∧ s.inputs = [] ∧ s.ir = 0xFF ∧ ∀ m, opcodeOf s.ir ≠ Params.default.opc m) :=
  ⟨⟨st .execute 3 0x70 0 [], rfl, rfl, rfl, fun m => by cases m <;> decide⟩,
    ⟨st .execute 3 0xFF 0 [], rfl, rfl, rfl, fun m => by cases m <;> decide⟩⟩

/-- P6a. -/
theorem witness_JumpToItselfNeverHalts :
    ∃ (s : State) (w : Byte), Params.default.wf ∧ s.phase = .fetch ∧ s.inputs = [] ∧ s.mem.read s.pc.toNat = some w ∧
      opcodeOf w = Params.default.opc .jump ∧ operandOf w = s.pc :=
  ⟨st .fetch 15 0 0 [(15, 0x5F)], 0x5F, by decide⟩

theorem witness_Lc3dRowsShowOutputs :
    (Lc3Operand.imm 15).wf ∧ (Lc3Operand.imm (-16)).wf ∧ (Lc3Operand.raw 31).wf := by decide

theorem witness_Lc3dImmediateAndName :
    (lc3dOutputs 1 0 0 (.raw 16)).mode = 0 ∧ (lc3dOutputs 1 0 0 (.imm (-16))).mode = 1 ∧
    (lc3dOutputs 1 0 0 (.imm (-16))).imm = some (-16) ∧ (lc3dOutputs 2 0 0 (.imm 15)).imm = some 15 := by decide

theorem witness_FetchStep : ∃ (s : State) (w : Byte), s.phase = .fetch ∧ s.mem.read s.pc.toNat = some w :=
  ⟨st .fetch 15 0 0 [(15, 3)], 3, by decide⟩

theorem witness_ExecuteStepRunsDecodedInstruction :
    Params.default.wf ∧
    (∃ s : State, s.phase = .execute ∧ s.inputs = [] ∧ encodeWith Params.default (.store 15) = .toy8 s.ir) ∧
    (∃ s : State, s.phase = .execute ∧ s.inputs = [.step, .reset] ∧
      encodeWith Params.default (.unassigned15 15) = .toy8 s.ir) :=
  ⟨by decide, ⟨st .execute 0 0x4F 7 [], by decide⟩,
    ⟨{ st .execute 0 0xFF 7 [] with inputs := [.step, .reset] }, by decide⟩⟩

theorem witness_InstructionCycle :
    ∃ (s : State) (i : Instr) (w : Byte), Params.default.wf ∧ s.phase = .fetch ∧ s.inputs = [] ∧
      s.mem.read s.pc.toNat = some w ∧ encodeWith Params.default i = .toy8 w :=
  ⟨st .fetch 15 0 0 [(15, 0x2F)], .add 15, 0x2F, by decide⟩

/-- A run of three steps that halts, one that does not, and its two phases between. -/
theorem witness_ThreeStepsPerInstruction :
    (∃ s t u, s.phase = .fetch ∧ s.inputs = [] ∧ runWith Params.default 2 s = .next t ∧ t.phase = .execute ∧
      runWith Params.default 3 s = .next u ∧ u.phase = .halted) ∧
    (∃ s t u, s.phase = .fetch ∧ s.inputs = [] ∧ runWith Params.default 3 s = .next t ∧ t.phase = .fetch ∧
      runWith Params.default 1 s = .next u ∧ u.phase = .decode) :=
  ⟨⟨st .fetch 15 0 0 [(15, 0)], _, _, rfl, rfl, rfl, by decide, rfl, by decide⟩,
    ⟨st .fetch 15 0 0 [(15, 0x5F)], _, _, rfl, rfl, rfl, by decide, rfl, by decide⟩⟩

theorem witness_DecodeAndHaltedSteps :
    (∃ s : State, s.phase = .decode) ∧ (∃ s : State, s.phase = .halted ∧ s.inputs = []) :=
  ⟨⟨st .decode 0 0 0 [], rfl⟩, ⟨st .halted 0 0 0 [], by decide⟩⟩

theorem witness_LegalPhaseTransitions :
    Params.default.wf ∧
    (∃ s t, stepEvent Params.default s = .next t ∧ s.phase = .fetch) ∧
    (∃ s t, stepEvent Params.default s = .next t ∧ s.phase = .decode) ∧
    (∃ s t, stepEvent Params.default s = .next t ∧ s.phase = .execute ∧ t.phase = .fetch) ∧
    (∃ s t, stepEvent Params.default s = .next t ∧ s.phase = .execute ∧ t.phase = .halted) ∧
    (∃ s t, stepEvent Params.default s = .next t ∧ s.phase = .halted) ∧
    (∃ s t, perform Params.default .reset s = .next t ∧ s.phase = .halted ∧ t.phase ≠ .halted) ∧
    (∃ s t, perform Params.default (.load []) s = .next t ∧ s.phase = .halted ∧ t.phase ≠ .halted) ∧
    (∃ s t, perform Params.default (.assemble []) s = .next t ∧ s.phase = .halted ∧ t.phase ≠ .halted) :=
  ⟨by decide, ⟨st .fetch 15 0 0 [(15, 0)], _, rfl, rfl⟩, ⟨st .decode 0 0 0 [], _, rfl, rfl⟩,
    ⟨st .execute 0 0x6F 0 [], _, rfl, rfl, rfl⟩, ⟨st .execute 0 0xFF 0 [], _, rfl, rfl, rfl⟩,
    ⟨st .halted 0 0 0 [], _, rfl, rfl⟩, ⟨st .halted 0 0 0 [], _, rfl, rfl, by decide⟩,
    ⟨st .halted 0 0 0 [], _, rfl, rfl, by decide⟩, ⟨st .halted 0 0 0 [], _, rfl, rfl, by decide⟩⟩

theorem witness_OnlyResetOrLoadLeavesHalted :
    ∃ s t : State, s.phase = .halted ∧ stepWith Params.default s = .next t ∧ t.phase ≠ .halted :=
  ⟨{ st .halted 4 0 8 [] with inputs := [.reset] }, _, rfl, rfl, by decide⟩

/-- In Execute: a write of AC, of memory and of PC. -/
theorem witness_WritePorts :
    (∃ s t, stepEvent Params.default s = .next t ∧ s.phase = .fetch ∧ t.pc = 0) ∧
    (∃ s t, stepEvent Params.default s = .next t ∧ s.phase = .decode) ∧
    (∃ s t, stepEvent Params.default s = .next t ∧ s.phase = .execute ∧ t.ac ≠ s.ac) ∧
    (∃ s t, stepEvent Params.default s = .next t ∧ s.phase = .execute ∧ t.mem ≠ s.mem) ∧
    (∃ s t, stepEvent Params.default s = .next t ∧ s.phase = .execute ∧ t.pc ≠ s.pc) ∧
    (∃ s t, stepEvent Params.default s = .next t ∧ s.phase = .halted) :=
  ⟨⟨st .fetch 15 0 0 [(15, 0)], _, rfl, rfl, by decide⟩, ⟨st .decode 0 0 0 [], _, rfl, rfl⟩,
    ⟨st .execute 0 0x1F 0 [(15, 1)], _, rfl, rfl, by decide⟩, ⟨st .execute 0 0x4F 7 [], _, rfl, rfl, by decide⟩,
    ⟨st .execute 0 0x5F 0 [], _, rfl, rfl, by decide⟩, ⟨st .halted 0 0 0 [], _, rfl, rfl⟩⟩

theorem witness_RegisterWriters :
    Params.default.wf ∧
    (∃ s t, stepWith Params.default s = .next t ∧ nextEvent s = .step ∧ t.ir ≠ s.ir ∧ t.pc ≠ s.pc) ∧
    (∃ s t, stepWith Params.default s = .next t ∧ nextEvent s = .step ∧ t.ac ≠ s.ac) ∧
    (∃ s t, stepWith Params.default s = .next t ∧ nextEvent s = .step ∧ s.phase = .execute ∧ t.pc ≠ s.pc) ∧
    (∃ s t, stepWith Params.default s = .next t ∧ nextEvent s = .decode 0x1465) :=
  ⟨by decide, ⟨st .fetch 15 0 0 [(15, 1)], _, rfl, rfl, by decide, by decide⟩,
    ⟨st .execute 0 0x1F 0 [(15, 1)], _, rfl, rfl, by decide⟩,
    ⟨st .execute 0 0x6F 0 [], _, rfl, rfl, rfl, by decide⟩,
    ⟨{ State.reset with inputs := [.decode 0x1465] }, _, rfl, rfl⟩⟩

theorem witness_StepDependsOnArchitecturalStateOnly :
    (∃ s t, stepEvent Params.default s = .next t) ∧ (∃ s f, stepEvent Params.default s = .refused f) :=
  ⟨⟨st .fetch 15 0 0 [(15, 0)], _, rfl⟩, ⟨State.reset, _, rfl⟩⟩

theorem witness_LoadedMachineAlwaysSteps : ∃ s : State, Loaded s ∧ s.inputs = [] :=
  ⟨st .fetch 0 0 0 full, show Memory.loaded full from Memory.ofImage_loaded _, rfl⟩

/-- The first address out of range and the last one in range. -/
theorem witness_NoEventFaults :
    readThen (st .execute 0 0 0 full) 16 (fun w => endInstr ((st .execute 0 0 0 full).setAc w.toNat)) =
      .fault (.outOfRange 16) ∧
    (∃ t, readThen (st .execute 0 0 0 full) 15 (fun w => endInstr ((st .execute 0 0 0 full).setAc w.toNat)) = .next t) ∧
    writeThen (st .execute 0 0 0 []) 16 7 endInstr = .fault (.outOfRange 16) ∧
    (∃ t, writeThen (st .execute 0 0 0 []) 15 7 endInstr = .next t) :=
  ⟨rfl, ⟨_, rfl⟩, rfl, ⟨_, rfl⟩⟩

/-- The refused reads of Fetch and of an Execute step, and a list one word too long. -/
theorem witness_RefusalsAreUnloadedOrTooLong :
    stepWith Params.default (st .execute 0 0x2E 7 []) = .refused (.unloadedMemory 14) ∧
    stepAccess Params.default (st .execute 0 0x2E 7 []) = .read 14 ∧
    stepWith Params.default (st .fetch 15 0 0 []) = .refused (.unloadedMemory 15) ∧
    stepWith Params.default { State.reset with inputs := [.load (List.replicate 17 0)] } =
      .refused (.imageTooLong 17) := ⟨rfl, rfl, rfl, rfl⟩

theorem witness_HaltCauseIsReadableFromIr :
    Params.default.wf ∧
    (∃ s t, s.phase = .execute ∧ stepEvent Params.default s = .next t ∧ HaltedNormally Params.default t) ∧
    (∃ s t, s.phase = .execute ∧ stepEvent Params.default s = .next t ∧ FailStopped Params.default t) :=
  ⟨by decide, ⟨st .execute 4 0x0F 8 [], _, rfl, rfl, rfl, by decide⟩,
    ⟨st .execute 4 0x70 8 [], _, rfl, rfl, rfl, fun m => by cases m <;> decide⟩⟩

theorem witness_HaltedPcIsOnePastTheWord :
    ∃ s t : State, s.phase = .fetch ∧ s.inputs = [] ∧ runWith Params.default 3 s = .next t ∧ t.phase = .halted ∧
      t.pc = 0 :=
  ⟨st .fetch 15 0 0 [(15, 0x09)], _, rfl, rfl, rfl, by decide, by decide⟩

/-- From a memory that is not the reset one, by a step that writes it and by a load. -/
theorem witness_EveryStepKeepsMemoryCanonical :
    (∃ s t, MemoryCanonical s ∧ stepWith Params.default s = .next t ∧ t.mem = [(0, 1), (3, 7), (15, 2)]) ∧
    (∃ s t, MemoryCanonical s ∧ stepWith Params.default s = .next t ∧ s.inputs = [.load [1]]) :=
  ⟨⟨st .execute 0 0x43 7 [(0, 1), (15, 2)], _, show Memory.wf _ by decide, rfl, by decide⟩,
    ⟨{ State.reset with inputs := [.load [1]] }, _, show Memory.wf _ by decide, rfl, rfl⟩⟩

theorem witness_PowerOnState :
    (∃ s : State, s = State.reset ∧ s.mem.read 15 = none) ∧ ∃ s : State, s = State.powerOn (fun _ => 0xFF) ∧ s.mem.read 15 = some 0xFF :=
  ⟨⟨_, rfl, rfl⟩, ⟨_, rfl, by decide⟩⟩

theorem witness_ResetEventClearsRegisters :
    ∃ s t : State, s.phase = .halted ∧ perform Params.default (.load []) s = .next t ∧ t.phase ≠ .halted :=
  ⟨st .halted 4 0 8 [], _, rfl, rfl, by decide⟩

/-- The addresses at which the clauses meet: the last word of the list, DATA_BASE - 1, DATA_BASE; and 16 and 17 words. -/
theorem witness_LoadReplacesMemory :
    wordOf 1 (perform Params.default (.load [7, 9]) State.reset) = some 9 ∧
    wordOf 2 (perform Params.default (.load [7, 9]) State.reset) = some 0 ∧
    wordOf 13 (perform Params.default (.load [7, 9]) State.reset) = some 0 ∧
    wordOf 14 (perform Params.default (.load [7, 9]) State.reset) = some 5 ∧
    wordOf 15 (perform Params.default (.load (List.replicate 16 9)) State.reset) = some 9 ∧
    nextOf (perform Params.default (.load (List.replicate 17 9)) State.reset) = none := by decide

theorem witness_UnrecognisedLinesEmitNothing :
    trimBlanks (stripComment (line " ; only a comment")) = [] ∧
    tokens (trimBlanks (stripComment (line "FOO 3"))) = [line "FOO", line "3"] ∧ lookupMnemonic (line "FOO") = none := by
  decide

theorem witness_AssembledImageIsLoaded :
    Params.default.wf ∧ wordOf 0 (perform Params.default (.assemble [line "ADD 15"]) State.reset) = some 0x2F ∧
    wordOf 1 (perform Params.default (.assemble [line "ADD 15"]) State.reset) = some 0 ∧
    wordOf 13 (perform Params.default (.assemble [line "ADD 15"]) State.reset) = some 0 ∧
    wordOf 15 (perform Params.default (.assemble [line "ADD 15"]) State.reset) = some 3 := by decide

theorem witness_ListingReassembles :
    Params.default.wf ∧ 0 < Params.default.dataBase ∧ (∃ m, opcodeOf 0x6F = Params.default.opc m) ∧
    (∀ m, opcodeOf 0x70 ≠ Params.default.opc m) :=
  ⟨by decide, by decide, ⟨.jumpIfZero, by decide⟩, fun m => by cases m <;> decide⟩

/-- A run that is still active after its ticks, and one that has ended. -/
theorem witness_RunnerTicksAreStepEvents :
    (∃ S T : Session, S.core.inputs = [] ∧ S.ticks Params.default 2 = .next T ∧ T.run ≠ none ∧
      S.core.response ≠ .status .alreadyHalted) ∧
    (∃ S T : Session, S.core.inputs = [] ∧ S.run ≠ none ∧ S.ticks Params.default 4 = .next T ∧ T.run = none) :=
  ⟨⟨⟨st .fetch 15 0 0 [(15, 0)], some 5⟩, _, rfl, rfl, by decide, by decide⟩,
    ⟨⟨st .fetch 15 0 0 [(15, 0)], some 5⟩, _, rfl, by decide, rfl, by decide⟩⟩

theorem witness_RunnerOperationsKeepTheCore :
    (∃ (S : Session) (s : State), stepEvent Params.default S.core = .next s ∧ S.run.isSome) ∧
    (∃ S T : Session, S.assemble Params.default [line "HALT"] = .next T ∧ S.run.isSome) :=
  ⟨⟨⟨st .decode 0 0 0 [], some 5⟩, _, rfl, rfl⟩, ⟨⟨State.reset, some 5⟩, _, rfl, rfl⟩⟩

end Sys2Proof.Tests
end

section
/-! PROOFS. The family spec/00_scope.md: `sext` (R7) is the two's-complement value of the masked word, so what signExtend
(R82) answers is read off from the library's `BitVec.toInt` and `BitVec.signExtend`. -/

namespace Sys2Proof.Machine

/-- R7: the signed value of a pattern is its two's-complement reading. -/
theorem sext_eq_toInt_mask (n : Nat) (v : Int) : sext n v = (mask n v).toInt := by
  rw [BitVec.toInt_eq_msb_cond, BitVec.msb_eq_decide, mask_toNat, sext]
  by_cases h : maskNat n v < 2 ^ (n - 1)
  · rw [if_pos h, if_neg (by simpa using h)]
  · rw [if_neg h, if_pos (by simpa using h)]

/-- R7: the signed range, lower end. -/
theorem neg_two_pow_le_sext (n : Nat) (v : Int) : -((2 ^ (n - 1) : Nat) : Int) ≤ sext n v := by
  rw [sext_eq_toInt_mask]
  exact_mod_cast BitVec.le_toInt (mask n v)

/-- R7: the signed range, upper end. -/
theorem sext_lt_two_pow (n : Nat) (v : Int) : sext n v < ((2 ^ (n - 1) : Nat) : Int) := by
  rw [sext_eq_toInt_mask]
  exact_mod_cast BitVec.toInt_lt (x := mask n v)

/-- R7: the signed value keeps the residue modulo 2^n. -/
theorem sext_emod (n : Nat) (v : Int) : sext n v % ((2 ^ n : Nat) : Int) = v % ((2 ^ n : Nat) : Int) := by
  rw [sext_eq_toInt_mask, mask_eq_ofInt, BitVec.toInt_ofInt, Int.bmod_emod]

/-- R82: on a K-bit datapath the signed value is the sign extension of the masked word. -/
theorem mask_sext (K n : Nat) (v : Int) : mask K (sext n v) = (mask n v).signExtend K := by
  rw [sext_eq_toInt_mask, mask_eq_ofInt K, BitVec.signExtend]

theorem testBit_maskNat (n : Nat) (v : Int) (i : Nat) : (maskNat n v).testBit i = (mask n v).getLsbD i := by
  rw [← mask_toNat, BitVec.testBit_toNat]

/-- R82: below the width a bit of the signed value is the masked value's own, from there on it is the sign bit. -/
theorem testBit_maskNat_sext {K n j : Nat} (v : Int) (hn : 1 ≤ n) (hj : j < K) :
    (maskNat K (sext n v)).testBit j = (maskNat n v).testBit (min j (n - 1)) := by
  rw [testBit_maskNat, testBit_maskNat, mask_sext, BitVec.getLsbD_signExtend, decide_eq_true hj, Bool.true_and]
  by_cases h : j < n
  · rw [if_pos h, Nat.min_eq_left (by omega)]
  · rw [if_neg h, Nat.min_eq_right (by omega), BitVec.msb_eq_getLsbD_last]

/-- R82 at width 0: no result (decision D17). -/
@[simp] theorem signExtend_width_zero (v : Int) : signExtend v 0 = none := rfl

theorem signExtend_of_pos {n : Nat} (v : Int) (hn : 1 ≤ n) : signExtend v n = some (sext n v) :=
  if_neg (by omega)

end Sys2Proof.Machine

namespace Sys2Proof.Proofs

open Sys2Proof.Machine

/-- Settles O2: `sext` is the two's-complement value of the masked word, so its range and its residue are those of
`BitVec.toInt`, and its pattern on a wider datapath is `BitVec.signExtend` of the masked word. -/
theorem signExtendIsSignedValue : Obligations.SignExtendIsSignedValue := by
  intro value width
  constructor
  · rintro rfl
    exact signExtend_width_zero value
  · intro hw
    exact ⟨sext width value, signExtend_of_pos value hw, neg_two_pow_le_sext width value, sext_lt_two_pow width value,
      sext_emod width value, fun K _ j hj => testBit_maskNat_sext value hw hj⟩

end Sys2Proof.Proofs
end

section
/-! PROOFS. The family spec/10_state.md: who may write PC, IR, AC and memory (R12, R13, R14, R21, R26), the transitions of
PHASE (R18), and that a step event reads no state but that of R10 (R22). `StepWrites` says once what a step event may write;
the statements about one register or about memory are read off from it. -/

namespace Sys2Proof.Machine

/-- What a step event may write, field by field: each of memory, IR, AC and PC is unchanged or is written in the phase and by
the opcode named here (R26). -/
structure StepWrites (P : Params) (s t : State) : Prop where
  mem : t.mem = s.mem ∨
    (s.phase = .execute ∧ opcodeOf s.ir = P.opc .store ∧ t.mem = s.mem.write (operandOf s.ir).toNat s.ac)
  ir : t.ir = s.ir ∨ s.phase = .fetch
  ac : t.ac = s.ac ∨ (s.phase = .execute ∧
    (opcodeOf s.ir = P.opc .load ∨ opcodeOf s.ir = P.opc .add ∨ opcodeOf s.ir = P.opc .sub))
  pc : t.pc = s.pc ∨ (s.phase = .fetch ∧ t.pc = s.pc + 1) ∨
    (s.phase = .execute ∧ t.pc = operandOf s.ir ∧
      (opcodeOf s.ir = P.opc .jump ∨ (opcodeOf s.ir = P.opc .jumpIfZero ∧ s.ac = 0)))

/-- A step event that leaves memory, IR, AC and PC alone writes as R26 allows. -/
theorem StepWrites.of_unchanged {P : Params} {s t : State} (hm : t.mem = s.mem) (hi : t.ir = s.ir) (ha : t.ac = s.ac)
    (hp : t.pc = s.pc) : StepWrites P s t :=
  ⟨.inl hm, .inl hi, .inl ha, .inl hp⟩

/-- An instruction that writes AC alone writes as R26 allows. -/
theorem StepWrites.of_ac {P : Params} {s t : State} (hm : t.mem = s.mem) (hi : t.ir = s.ir) (hp : t.pc = s.pc)
    (hx : s.phase = .execute)
    (ho : opcodeOf s.ir = P.opc .load ∨ opcodeOf s.ir = P.opc .add ∨ opcodeOf s.ir = P.opc .sub) : StepWrites P s t :=
  ⟨.inl hm, .inl hi, .inr ⟨hx, ho⟩, .inl hp⟩

/-- R26: every step event keeps to its write ports. -/
theorem stepEvent_writes {P : Params} {s t : State} (h : stepEvent P s = .next t) : StepWrites P s t := by
  rcases stepEvent_cases h with ⟨hp, w, -, rfl⟩ | ⟨-, rfl⟩ | ⟨-, rfl⟩ | ⟨-, -, rfl⟩ | ⟨-, -, rfl⟩ | ⟨hp, ho, v, -, rfl⟩ |
    ⟨hp, ho, v, -, rfl⟩ | ⟨hp, ho, v, -, rfl⟩ | ⟨hp, ho, rfl⟩ | ⟨hp, ho, rfl⟩ | ⟨hp, ho, rfl⟩
  · exact ⟨.inl rfl, .inr hp, .inl rfl, .inr (.inl ⟨hp, rfl⟩)⟩
  · exact .of_unchanged rfl rfl rfl rfl
  · exact .of_unchanged rfl rfl rfl rfl
  · exact .of_unchanged rfl rfl rfl rfl
  · exact .of_unchanged rfl rfl rfl rfl
  · exact .of_ac rfl rfl rfl hp (.inl ho)
  · exact .of_ac rfl rfl rfl hp (.inr (.inl ho))
  · exact .of_ac rfl rfl rfl hp (.inr (.inr ho))
  · exact ⟨.inr ⟨hp, ho, rfl⟩, .inl rfl, .inl rfl, .inl rfl⟩
  · exact ⟨.inl rfl, .inl rfl, .inl rfl, .inr (.inr ⟨hp, rfl, .inl ho⟩)⟩
  · by_cases z : s.ac = 0
    · exact ⟨.inl rfl, .inl rfl, .inl rfl, .inr (.inr ⟨hp, if_pos z, .inr ⟨ho, z⟩⟩)⟩
    · exact .of_unchanged rfl rfl rfl (if_neg z)

/-- The write ports do not mention the queue, so they may be read on the state before the event left it. -/
theorem StepWrites.of_setInputs {P : Params} {s t : State} {es : List HostEvent}
    (h : StepWrites P (s.setInputs es) t) : StepWrites P s t :=
  ⟨h.mem, h.ir, h.ac, h.pc⟩

/-- R26 for the machine's step when the event it performs is a step event. -/
theorem stepWith_step_writes {P : Params} {s t : State} (e : nextEvent s = .step) (h : stepWith P s = .next t) :
    StepWrites P s t := by
  rw [stepWith, e] at h
  exact (stepEvent_writes h).of_setInputs

/-- R23, R88: a word presented to the LC3D unit changes nothing but the outputs shown. -/
theorem perform_decode_next {P : Params} {w : Lc3Word} {s t : State} (h : perform P (.decode w) s = .next t) :
    ∃ o, t = { s with response := .lc3d o } := by
  rw [perform, decodeLc3d, exec_ofLc3d] at h
  cases h
  exact ⟨_, rfl⟩

/-- R34, R164: an assembly leaves memory as an image, as a load does, and the core is in Fetch again. -/
theorem assembleEvent_next {P : Params} {source : List (List Char)} {s t : State}
    (h : assembleEvent P source s = .next t) : t.phase = .fetch ∧ ∃ image, t.mem = Memory.ofImage image := by
  obtain ⟨-, rfl⟩ := loadEvent_next h
  exact ⟨rfl, _, rfl⟩

/-- R21: the memory the machine's step leaves: the old one, the old one with STORE's word, or a whole image. -/
theorem stepWith_mem {P : Params} {s t : State} (h : stepWith P s = .next t) :
    t.mem = s.mem ∨
    (nextEvent s = .step ∧ s.phase = .execute ∧ opcodeOf s.ir = P.opc .store ∧
      t.mem = s.mem.write (operandOf s.ir).toNat s.ac) ∨
    (((∃ words, nextEvent s = .load words) ∨ ∃ source, nextEvent s = .assemble source) ∧
      ∃ image, t.mem = Memory.ofImage image) := by
  rcases stepWith_next h with ⟨e, -⟩ | ⟨-, rfl⟩ | ⟨words, e, hl⟩ | ⟨source, e, ha⟩ | ⟨w, -, o, rfl⟩
  · exact (stepWith_step_writes e h).mem.imp_right fun hs => .inl ⟨e, hs⟩
  · exact .inl rfl
  · obtain ⟨-, rfl⟩ := loadEvent_next hl
    exact .inr (.inr ⟨.inl ⟨words, e⟩, _, rfl⟩)
  · exact .inr (.inr ⟨.inr ⟨source, e⟩, (assembleEvent_next ha).2⟩)
  · exact .inl rfl

/-- R105, R132: where one of the seven instructions takes PHASE. -/
theorem exec_ofMnemonic_phase {m : Mnemonic} {a : Addr} {s t : State} (h : exec (Instr.ofMnemonic m a) s = .next t) :
    t.phase = if m = .halt then .halted else .fetch := by
  rcases exec_ofMnemonic_next h with ⟨rfl, v, -, rfl⟩ | ⟨rfl, v, -, rfl⟩ | ⟨rfl, v, -, rfl⟩ | ⟨rfl, rfl⟩ | ⟨rfl, rfl⟩ |
    ⟨rfl, rfl⟩ | ⟨rfl, rfl⟩ <;> rfl

/-- R18: the Execute step goes to Fetch on the six opcodes that do not halt, and to Halted on every other; this is where OPC
must be injective, or HALT's number could be another mnemonic's too. -/
theorem executePhase_phase {P : Params} {s t : State} (hw : P.wf) (h : executePhase P s = .next t) :
    (t.phase = .fetch ∧ ∃ m, m ≠ .halt ∧ opcodeOf s.ir = P.opc m) ∨
    (t.phase = .halted ∧ ∀ m, m ≠ .halt → opcodeOf s.ir ≠ P.opc m) := by
  rcases exec_decodeToy8_next (s := s.respond (.status .ok)) h with ⟨m, hm, he⟩ | ⟨hm, rfl⟩
  · have hp := exec_ofMnemonic_phase he
    by_cases hh : m = .halt
    · subst hh
      exact .inr ⟨hp, fun n hn e => hn (Params.opc_injective hw (e.symm.trans hm))⟩
    · exact .inl ⟨hp.trans (if_neg hh), m, hh, hm⟩
  · exact .inr ⟨rfl, fun m _ => hm m⟩

/-- R107: a step event does not leave Halted. -/
theorem stepEvent_halted_phase {P : Params} {s t : State} (hp : s.phase = .halted) (h : stepEvent P s = .next t) :
    t.phase = .halted := by
  rw [stepEvent, hp] at h
  cases h
  exact hp

/-- An outcome whose next state, if there is one, has another queue. -/
def outcomeWithInputs (es : List HostEvent) : Result → Result
  | .next t => .next (t.setInputs es)
  | .fault f => .fault f
  | .refused f => .refused f

/-- A read passes the queue on when the rest of the instruction does. -/
theorem readThen_setInputs {s : State} {es : List HostEvent} {k k' : Byte → Result} (a : Nat)
    (hk : ∀ v, k' v = outcomeWithInputs es (k v)) :
    readThen (s.setInputs es) a k' = outcomeWithInputs es (readThen s a k) := by
  unfold readThen
  rw [State.setInputs_mem]
  split
  · rfl
  · cases s.mem.read a with
    | none => rfl
    | some v => exact hk v

/-- No instruction reads or writes the queue (R22). -/
theorem exec_setInputs (i : Instr) (s : State) (es : List HostEvent) :
    exec i (s.setInputs es) = outcomeWithInputs es (exec i s) := by
  cases i with
  | load a => exact readThen_setInputs _ fun _ => rfl
  | add a => exact readThen_setInputs _ fun _ => rfl
  | sub a => exact readThen_setInputs _ fun _ => rfl
  | store a => rw [exec, exec, execStore_eq, execStore_eq]; rfl
  | jumpIfZero a => rw [exec, exec, execJumpIfZero_eq, execJumpIfZero_eq]; rfl
  | _ => rfl

/-- R22, R101: the queue passes through a step event and the last response has no influence on it, because each phase gives
its own response. -/
theorem stepEvent_setInputs_respond (P : Params) (s : State) (es : List HostEvent) (r : Response) :
    stepEvent P ((s.setInputs es).respond r) = outcomeWithInputs es (stepEvent P s) := by
  simp only [stepEvent, State.respond_phase, State.setInputs_phase]
  cases s.phase with
  | fetch => exact readThen_setInputs (s := s) _ fun _ => rfl
  | decode => rfl
  | execute => exact exec_setInputs (decodeToy8 P s.ir) (s.respond (.status .ok)) es
  | halted => rfl

end Sys2Proof.Machine

namespace Sys2Proof.Proofs

open Sys2Proof.Machine

/-- Settles O48: memory is left as it was, or is written at a 4-bit address, or is a whole image, and each is canonical. -/
theorem everyStepKeepsMemoryCanonical : Obligations.EveryStepKeepsMemoryCanonical := by
  intro P s t hs h
  unfold MemoryCanonical at hs ⊢
  rcases stepWith_mem h with e | ⟨-, -, -, e⟩ | ⟨-, image, e⟩ <;> rw [e]
  · exact hs
  · exact Memory.write_wf _ hs (addr_lt _)
  · exact Memory.ofImage_wf image

/-- Settles O15: of the three memories an event can leave, the two that differ come from STORE and from a load or an
assembly. -/
theorem onlyStoreAndLoadWriteMemory : Obligations.OnlyStoreAndLoadWriteMemory := by
  intro P s t _ h hne
  rcases stepWith_mem h with e | ⟨he, hp, ho, -⟩ | ⟨he, -⟩
  · exact absurd e hne
  · exact .inl ⟨he, hp, ho⟩
  · exact .inr he

/-- Settles O38: the step event by phase, and the other events one by one. -/
theorem legalPhaseTransitions : Obligations.LegalPhaseTransitions := by
  constructor
  · intro P s t hw h
    refine ⟨fun hp => ?fetch, fun hp => ?decode, fun hp => ?execute, fun hp => stepEvent_halted_phase hp h⟩
      <;> rw [stepEvent, hp] at h
    case fetch =>
      obtain ⟨w, -, e⟩ := readThen_next h
      cases e
      rfl
    case decode =>
      cases h
      rfl
    case execute => exact executePhase_phase hw h
  · intro P s t e h
    cases e with
    | reset =>
      cases h
      exact ⟨fun _ => rfl, fun _ _ => .inl rfl⟩
    | load words =>
      obtain ⟨-, rfl⟩ := loadEvent_next h
      exact ⟨fun _ => rfl, fun _ _ => .inr (.inl ⟨words, rfl⟩)⟩
    | assemble source =>
      exact ⟨fun _ => (assembleEvent_next h).1, fun _ _ => .inr (.inr ⟨source, rfl⟩)⟩
    | step => exact ⟨by simp, fun hp hne => absurd (stepEvent_halted_phase hp h) hne⟩
    | decode w =>
      obtain ⟨o, rfl⟩ := perform_decode_next h
      exact ⟨by simp, fun hp hne => absurd hp hne⟩

/-- Settles O41: a step event keeps to its write ports, and an LC3D word writes no register. -/
theorem registerWriters : Obligations.RegisterWriters := by
  intro P s t _ h hev
  rcases hev with e | ⟨w, e⟩
  · obtain ⟨-, hir, hac, hpc⟩ := stepWith_step_writes e h
    exact ⟨fun hne => ⟨e, hir.resolve_left hne⟩, fun hne => ⟨e, hac.resolve_left hne⟩,
      fun hne => ⟨e, hpc.resolve_left hne⟩⟩
  · rw [stepWith, e] at h
    obtain ⟨o, rfl⟩ := perform_decode_next h
    exact ⟨fun hne => absurd rfl hne, fun hne => absurd rfl hne, fun hne => absurd rfl hne⟩

/-- Settles O42: both clauses are the one equation `stepEvent_setInputs_respond`. -/
theorem stepDependsOnArchitecturalStateOnly : Obligations.StepDependsOnArchitecturalStateOnly := by
  intro P s es r
  constructor
  · intro t h
    exact (stepEvent_setInputs_respond P s es r).trans (congrArg (outcomeWithInputs es) h)
  · intro f h
    exact (stepEvent_setInputs_respond P s es r).trans (congrArg (outcomeWithInputs es) h)

end Sys2Proof.Proofs
end

section
/-! PROOFS. The family spec/20_memory.md: read after write (R31, R32), at the 4-bit addresses of R30. -/

namespace Sys2Proof.Proofs

open Sys2Proof.Machine

/-- Settles O12: read after write is a law of the cell list at any address, canonical or not; the canonical form needs the
written address inside the address space, which a 4-bit address is. -/
theorem memoryReadAfterWrite : Obligations.MemoryReadAfterWrite := by
  intro m a v
  constructor
  · exact Memory.read_write m a.toNat v
  · exact fun hm => Memory.write_wf v hm (addr_lt a)

end Sys2Proof.Proofs
end

section
/-! PROOFS. The family spec/30_encoding.md: both directions of the code of both formats (R51, R53, R54, R56, R57), and what
the assembler emits line by line (R60, R62, R65, R68) and loads (R69, R71). Every instruction is a mnemonic, an unassigned
row or an LC3D row with its fields, so the two round trips are proved once for each of these three forms. -/

namespace Sys2Proof

open Sys2Proof.Machine

/-! ### The fields of a TOY8 word -/

/-- R51: the opcode is bits 7..4. -/
theorem opcodeOf_eq_extractLsb' (w : Byte) : opcodeOf w = w.extractLsb' 4 4 := by
  apply BitVec.eq_of_toNat_eq
  rw [opcodeOf, mask_toNat, maskNat_natCast]
  simp [slice, Nat.shiftRight_eq_div_pow]

/-- R51: the operand is bits 3..0. -/
theorem operandOf_eq_extractLsb' (w : Byte) : operandOf w = w.extractLsb' 0 4 := by
  apply BitVec.eq_of_toNat_eq
  rw [operandOf, mask_toNat, maskNat_natCast]
  simp [slice]

/-- R51, R67: a TOY8 word as a number, its operand masked. -/
theorem toy8Word_toNat (op : Opcode) (d : Int) : (toy8Word op d).toNat = op.toNat * 16 + maskNat 4 d := by
  have hop := op.isLt
  have hd := maskNat_lt 4 d
  simp only [toy8Word, composeWord, packFields, mask_toNat, maskNat_natCast]
  omega

/-! ### Unassigned opcode numbers -/

/-- The sixteen opcode numbers the unassigned ones are picked from are all there are (R51). -/
theorem Opcode.mem_all (op : Opcode) : op ∈ (List.range 16).map (BitVec.ofNat 4) :=
  List.mem_map.mpr ⟨op.toNat, List.mem_range.mpr op.isLt, by simp⟩

/-- R54: the unassigned opcode numbers are those outside the image of OPC. -/
theorem Params.mem_unassigned {P : Params} {op : Opcode} : op ∈ P.unassigned ↔ ∀ m, op ≠ P.opc m := by
  have hassigned : P.assigned op = true ↔ ∃ m, P.opc m = op := by
    simp [Params.assigned, Mnemonic.mem_all]
  simp only [Params.unassigned, List.mem_filter, Opcode.mem_all, true_and, Bool.not_eq_true', ← Bool.not_eq_true, hassigned]
  exact ⟨fun h m e => h ⟨m, e.symm⟩, fun h ⟨m, e⟩ => h m e.symm⟩

theorem Params.unassigned_nodup (P : Params) : P.unassigned.Nodup := by
  have hall : ((List.range 16).map (BitVec.ofNat 4)).Nodup := by decide
  exact hall.filter _

/-- R54: an injective OPC uses seven of the sixteen opcode numbers and leaves nine. -/
theorem Params.unassigned_length {P : Params} (h : P.wf) : P.unassigned.length = 9 := by
  have hopc : (Mnemonic.all.map P.opc).Nodup := by
    simp only [Params.wf, Bool.and_eq_true, decide_eq_true_eq] at h
    exact h.1
  have hperm : (P.unassigned ++ Mnemonic.all.map P.opc).Perm ((List.range 16).map (BitVec.ofNat 4)) := by
    refine (List.perm_ext_iff_of_nodup (P.unassigned_nodup.append hopc ?_) (by decide)).mpr fun op => ?_
    · intro op hu ha
      obtain ⟨m, -, e⟩ := List.mem_map.mp ha
      exact Params.mem_unassigned.mp hu m e.symm
    · refine iff_of_true (List.mem_append.mpr ?_) (Opcode.mem_all op)
      by_cases ho : ∃ m, P.opc m = op
      · obtain ⟨m, e⟩ := ho
        exact .inr (List.mem_map.mpr ⟨m, Mnemonic.mem_all m, e⟩)
      · exact .inl (Params.mem_unassigned.mpr fun m e => ho ⟨m, e.symm⟩)
  have hlen := hperm.length_eq
  simp only [List.length_append, List.length_map, List.length_range, Mnemonic.all, List.length_cons,
    List.length_nil] at hlen
  omega

/-! ### The three forms of an instruction -/

/-- Every row of the opcode table is a mnemonic, one of the nine unassigned rows, or an LC3D row with its fields. -/
theorem Instr.ofMnemonic_or_ofUnassigned_or_ofLc3d (i : Instr) :
    (∃ m a, i = Instr.ofMnemonic m a) ∨ (∃ k a, k < 9 ∧ i = Instr.ofUnassigned k a) ∨
    ∃ op dr sr1 src, i = Instr.ofLc3d op dr sr1 src := by
  cases i with
  | halt a => exact .inl ⟨.halt, a, rfl⟩
  | load a => exact .inl ⟨.load, a, rfl⟩
  | add a => exact .inl ⟨.add, a, rfl⟩
  | sub a => exact .inl ⟨.sub, a, rfl⟩
  | store a => exact .inl ⟨.store, a, rfl⟩
  | jump a => exact .inl ⟨.jump, a, rfl⟩
  | jumpIfZero a => exact .inl ⟨.jumpIfZero, a, rfl⟩
  | unassigned7 a => exact .inr (.inl ⟨0, a, by decide, rfl⟩)
  | unassigned8 a => exact .inr (.inl ⟨1, a, by decide, rfl⟩)
  | unassigned9 a => exact .inr (.inl ⟨2, a, by decide, rfl⟩)
  | unassigned10 a => exact .inr (.inl ⟨3, a, by decide, rfl⟩)
  | unassigned11 a => exact .inr (.inl ⟨4, a, by decide, rfl⟩)
  | unassigned12 a => exact .inr (.inl ⟨5, a, by decide, rfl⟩)
  | unassigned13 a => exact .inr (.inl ⟨6, a, by decide, rfl⟩)
  | unassigned14 a => exact .inr (.inl ⟨7, a, by decide, rfl⟩)
  | unassigned15 a => exact .inr (.inl ⟨8, a, by decide, rfl⟩)
  | lc3dOp0 dr sr1 src => exact .inr (.inr ⟨0, dr, sr1, src, rfl⟩)
  | lc3dAdd dr sr1 src => exact .inr (.inr ⟨1, dr, sr1, src, rfl⟩)
  | lc3dOp2 dr sr1 src => exact .inr (.inr ⟨2, dr, sr1, src, rfl⟩)
  | lc3dOp3 dr sr1 src => exact .inr (.inr ⟨3, dr, sr1, src, rfl⟩)
  | lc3dOp4 dr sr1 src => exact .inr (.inr ⟨4, dr, sr1, src, rfl⟩)
  | lc3dOp5 dr sr1 src => exact .inr (.inr ⟨5, dr, sr1, src, rfl⟩)
  | lc3dOp6 dr sr1 src => exact .inr (.inr ⟨6, dr, sr1, src, rfl⟩)
  | lc3dOp7 dr sr1 src => exact .inr (.inr ⟨7, dr, sr1, src, rfl⟩)
  | lc3dOp8 dr sr1 src => exact .inr (.inr ⟨8, dr, sr1, src, rfl⟩)
  | lc3dOp9 dr sr1 src => exact .inr (.inr ⟨9, dr, sr1, src, rfl⟩)
  | lc3dOp10 dr sr1 src => exact .inr (.inr ⟨10, dr, sr1, src, rfl⟩)
  | lc3dOp11 dr sr1 src => exact .inr (.inr ⟨11, dr, sr1, src, rfl⟩)
  | lc3dOp12 dr sr1 src => exact .inr (.inr ⟨12, dr, sr1, src, rfl⟩)
  | lc3dOp13 dr sr1 src => exact .inr (.inr ⟨13, dr, sr1, src, rfl⟩)
  | lc3dOp14 dr sr1 src => exact .inr (.inr ⟨14, dr, sr1, src, rfl⟩)
  | lc3dOp15 dr sr1 src => exact .inr (.inr ⟨15, dr, sr1, src, rfl⟩)

/-- R53: the word of one of the seven instructions. -/
theorem encodeWith_ofMnemonic (P : Params) (m : Mnemonic) (a : Addr) :
    encodeWith P (Instr.ofMnemonic m a) = .toy8 (toy8Word (P.opc m) a.toNat) := by
  cases m <;> rfl

/-- R54: the word of an unassigned row. -/
theorem encodeWith_ofUnassigned (P : Params) {k : Nat} (hk : k < 9) (a : Addr) :
    encodeWith P (Instr.ofUnassigned k a) = .toy8 (unassignedWord P k a) := by
  interval_cases k <;> rfl

/-- R90: the word of an LC3D row. -/
theorem encodeWith_ofLc3d (P : Params) (op : Opcode) (dr sr1 : RegNum) (src : Lc3Operand) :
    encodeWith P (Instr.ofLc3d op dr sr1 src) = .lc3d (lc3dWord op dr sr1 src) :=
  ofLc3d_induction (p := fun o i => encodeWith P i = .lc3d (lc3dWord o dr sr1 src))
    ⟨rfl, rfl, rfl, rfl, rfl, rfl, rfl, rfl, rfl, rfl, rfl, rfl, rfl, rfl, rfl, rfl⟩ op

@[simp] theorem Instr.wf_ofMnemonic (m : Mnemonic) (a : Addr) : (Instr.ofMnemonic m a).wf = true := by
  cases m <;> rfl

@[simp] theorem Instr.wf_ofUnassigned (k : Nat) (a : Addr) : (Instr.ofUnassigned k a).wf = true := by
  unfold Instr.ofUnassigned
  split <;> rfl

/-- R57: an LC3D row is well formed when its operand is. -/
@[simp] theorem Instr.wf_ofLc3d (op : Opcode) (dr sr1 : RegNum) (src : Lc3Operand) :
    (Instr.ofLc3d op dr sr1 src).wf = src.wf :=
  ofLc3d_induction (p := fun _ i => i.wf = src.wf)
    ⟨rfl, rfl, rfl, rfl, rfl, rfl, rfl, rfl, rfl, rfl, rfl, rfl, rfl, rfl, rfl, rfl⟩ op

/-! ### TOY8 words, both directions -/

/-- Decode of the word of one of the seven instructions (R53, R104). -/
theorem decodeToy8_toy8Word {P : Params} (h : P.wf) (m : Mnemonic) (a : Addr) :
    decodeToy8 P (toy8Word (P.opc m) a.toNat) = Instr.ofMnemonic m a := by
  rw [decodeToy8_of_opc h (opcodeOf_toy8Word _ _), operandOf_toy8Word]

/-- Decode of the word of an unassigned row: the k-th unassigned number stands at place k (assumption 8). -/
theorem decodeToy8_unassignedWord {P : Params} (h : P.wf) {k : Nat} (hk : k < 9) (a : Addr) :
    decodeToy8 P (unassignedWord P k a) = Instr.ofUnassigned k a := by
  have hlen : k < P.unassigned.length := by rwa [Params.unassigned_length h]
  have hop : opcodeOf (unassignedWord P k a) = P.unassigned[k] := by
    rw [unassignedWord, opcodeOf_toy8Word, List.getD_eq_getElem _ _ hlen]
  have hout : ∀ m, opcodeOf (unassignedWord P k a) ≠ P.opc m :=
    Params.mem_unassigned.mp (hop ▸ List.getElem_mem hlen)
  rw [decodeToy8_of_unassigned hout, hop, P.unassigned_nodup.idxOf_getElem, unassignedWord, operandOf_toy8Word]

/-- Encode of what a TOY8 word decodes to (R51). -/
theorem encodeWith_decodeToy8 {P : Params} (h : P.wf) (w : Byte) : encodeWith P (decodeToy8 P w) = .toy8 w := by
  by_cases ho : ∃ m, opcodeOf w = P.opc m
  · obtain ⟨m, hm⟩ := ho
    rw [decodeToy8_of_opc h hm, encodeWith_ofMnemonic, ← hm, toy8Word_fields]
  · have hout : ∀ m, opcodeOf w ≠ P.opc m := fun m e => ho ⟨m, e⟩
    have hidx := List.idxOf_lt_length_iff.mpr (Params.mem_unassigned.mpr hout)
    rw [decodeToy8_of_unassigned hout, encodeWith_ofUnassigned P (by rwa [← Params.unassigned_length h]),
      unassignedWord, List.getD_eq_getElem _ _ hidx, List.getElem_idxOf, toy8Word_fields]

theorem decodeToy8_wf (P : Params) (w : Byte) : (decodeToy8 P w).wf := by
  rcases decodeToy8_cases P w with ⟨m, -, e⟩ | ⟨-, k, e⟩ <;> simp [e]

/-! ### LC3D words, both directions -/

/-- R56, R90: an LC3D word as a number, its five fields side by side. -/
theorem lc3dWord_toNat (op : Opcode) (dr sr1 : RegNum) (src : Lc3Operand) :
    (lc3dWord op dr sr1 src).toNat =
      (((op.toNat * 8 + dr.toNat) * 8 + sr1.toNat) * 2 + src.mode.toNat) * 32 + src.imm5.toNat := by
  have h0 := op.isLt
  have h1 := dr.isLt
  have h2 := sr1.isLt
  have h3 := src.mode.isLt
  have h4 := src.imm5.isLt
  simp only [lc3dWord, composeWord, packFields, mask_toNat, maskNat_natCast]
  omega

/-- R56, R90: the five fields read back from an LC3D word. -/
theorem slice_lc3dWord (op : Opcode) (dr sr1 : RegNum) (src : Lc3Operand) :
    slice (lc3dWord op dr sr1 src).toNat 15 12 = op.toNat ∧
    slice (lc3dWord op dr sr1 src).toNat 11 9 = dr.toNat ∧
    slice (lc3dWord op dr sr1 src).toNat 8 6 = sr1.toNat ∧
    slice (lc3dWord op dr sr1 src).toNat 5 5 = src.mode.toNat ∧
    slice (lc3dWord op dr sr1 src).toNat 4 0 = src.imm5.toNat := by
  have h0 := op.isLt
  have h1 := dr.isLt
  have h2 := sr1.isLt
  have h3 := src.mode.isLt
  have h4 := src.imm5.isLt
  simp only [slice, lc3dWord_toNat]
  omega

/-- R57: a value of the signed 5-bit range is what its field reads as. -/
theorem sext_mask_of_range {v : Int} (hlo : -16 ≤ v) (hhi : v ≤ 15) : sext 5 ((mask 5 v).toNat : Int) = v := by
  have hres : sext 5 ((mask 5 v).toNat : Int) % 32 = v % 32 := by
    have hmask := maskNat_emod 5 v
    have hsext := sext_emod 5 ((mask 5 v).toNat : Int)
    rw [mask_toNat] at hsext ⊢
    omega
  have hge := neg_two_pow_le_sext 5 ((mask 5 v).toNat : Int)
  have hlt := sext_lt_two_pow 5 ((mask 5 v).toNat : Int)
  omega

/-- R57, R90: a word whose low fields are those of a well-formed operand shows that operand. -/
theorem lc3dOperandOf_eq {w : Lc3Word} {src : Lc3Operand} (hwf : src.wf)
    (hmode : slice w.toNat 5 5 = src.mode.toNat) (himm : slice w.toNat 4 0 = src.imm5.toNat) :
    lc3dOperandOf w = src := by
  rw [lc3dOperandOf, hmode, himm]
  cases src with
  | imm v =>
    simp only [Lc3Operand.wf, Bool.and_eq_true, decide_eq_true_eq] at hwf
    obtain ⟨hlo, hhi⟩ := hwf
    exact congrArg Lc3Operand.imm (sext_mask_of_range hlo hhi)
  | raw bits => exact congrArg Lc3Operand.raw (mask_natCast_toNat bits)

/-- Decode of the word of an LC3D row (R86, R90). -/
theorem decodeLc3d_lc3dWord (op : Opcode) (dr sr1 : RegNum) {src : Lc3Operand} (hwf : src.wf) :
    decodeLc3d (lc3dWord op dr sr1 src) = Instr.ofLc3d op dr sr1 src := by
  obtain ⟨hop, hdr, hsr1, hmode, himm⟩ := slice_lc3dWord op dr sr1 src
  rw [decodeLc3d, hop, hdr, hsr1, lc3dOperandOf_eq hwf hmode himm]
  simp only [mask_natCast_toNat]

/-- R57: the mode of the operand a word shows is its bit 5. -/
theorem lc3dOperandOf_mode (w : Lc3Word) : (lc3dOperandOf w).mode.toNat = slice w.toNat 5 5 := by
  unfold lc3dOperandOf
  split
  · next h => exact h.symm
  · next h =>
    have hbit : slice w.toNat 5 5 < 2 := Nat.mod_lt _ (by decide)
    change 0 = slice w.toNat 5 5
    omega

/-- R57, R90: the operand a word shows has the word's bits 4..0, because entering a sign-extended field again gives it
back. -/
theorem lc3dOperandOf_imm5 (w : Lc3Word) : (lc3dOperandOf w).imm5 = mask 5 (slice w.toNat 4 0) := by
  unfold lc3dOperandOf
  split
  · exact (mask_sext 5 5 _).trans (BitVec.signExtend_eq _)
  · rfl

/-- R57: the operand a word shows is well formed. -/
theorem lc3dOperandOf_wf (w : Lc3Word) : (lc3dOperandOf w).wf := by
  unfold lc3dOperandOf
  split
  · have h1 := neg_two_pow_le_sext 5 (slice w.toNat 4 0)
    have h2 := sext_lt_two_pow 5 (slice w.toNat 4 0)
    simp only [Lc3Operand.wf, Bool.and_eq_true, decide_eq_true_eq]
    omega
  · rfl

/-- An LC3D word is composed of its fields (R86). -/
theorem lc3dWord_fields (w : Lc3Word) :
    lc3dWord (mask 4 (slice w.toNat 15 12)) (mask 3 (slice w.toNat 11 9)) (mask 3 (slice w.toNat 8 6))
      (lc3dOperandOf w) = w := by
  apply BitVec.eq_of_toNat_eq
  have hw := w.isLt
  rw [lc3dWord_toNat, lc3dOperandOf_mode, lc3dOperandOf_imm5]
  simp only [mask_toNat, maskNat_natCast, slice]
  omega

end Sys2Proof

namespace Sys2Proof.Machine

/-! ### The assembler, line by line -/

/-- R60: lines are taken one after the other. -/
theorem emitLines_cons (P : Params) (emitted : List Byte) (line : List Char) (rest : List (List Char)) :
    emitLines P emitted (line :: rest) = emitLines P (emitLines P emitted [line]) rest := by
  simp only [emitLines]
  split
  · rfl
  · split <;> rfl

theorem emitLines_append (P : Params) (emitted : List Byte) (before after : List (List Char)) :
    emitLines P emitted (before ++ after) = emitLines P (emitLines P emitted before) after := by
  induction before generalizing emitted with
  | nil => rfl
  | cons line rest ih => rw [List.cons_append, emitLines_cons, ih, ← emitLines_cons]

/-- R60, R68: everything one line can do: it emits nothing, or one word while the instruction region has room. -/
theorem emitLines_singleton_cases (P : Params) (emitted : List Byte) (line : List Char) :
    emitLines P emitted [line] = emitted ∨
    (emitted.length < P.dataBase ∧ ∃ w, emitLines P emitted [line] = emitted ++ [w]) := by
  simp only [emitLines]
  split
  · exact .inl rfl
  · split
    · next hroom => exact .inr ⟨hroom, _, rfl⟩
    · exact .inl rfl

/-- R60: lines add at most one word each. -/
theorem emitLines_length_le (P : Params) (emitted : List Byte) (source : List (List Char)) :
    (emitLines P emitted source).length ≤ emitted.length + source.length := by
  induction source generalizing emitted with
  | nil => exact Nat.le_refl _
  | cons line rest ih =>
    have hrest := ih (emitLines P emitted [line])
    rw [emitLines_cons, List.length_cons]
    rcases emitLines_singleton_cases P emitted line with e | ⟨-, w, e⟩
      <;> simp only [e, List.length_append, List.length_singleton] at hrest ⊢ <;> omega

/-- R68: the words never outgrow the instruction region. -/
theorem emitLines_length_le_dataBase {P : Params} {emitted : List Byte} (h : emitted.length ≤ P.dataBase)
    (source : List (List Char)) : (emitLines P emitted source).length ≤ P.dataBase := by
  induction source generalizing emitted with
  | nil => exact h
  | cons line rest ih =>
    rw [emitLines_cons]
    apply ih
    rcases emitLines_singleton_cases P emitted line with e | ⟨hroom, w, e⟩ <;> rw [e]
    · exact h
    · simpa using hroom

theorem assembleWords_length_le_dataBase (P : Params) (source : List (List Char)) :
    (assembleWords P source).length ≤ P.dataBase :=
  emitLines_length_le_dataBase (Nat.zero_le _) source

/-- R62: a line that is empty after stripping asks for nothing. -/
theorem parseLine_of_blank {line : List Char} (h : trimBlanks (stripComment line) = []) : parseLine line = none := by
  rw [parseLine, h]
  rfl

/-- R65: a line whose first token spells no mnemonic asks for nothing. -/
theorem parseLine_of_unknown {line first : List Char} {rest : List (List Char)}
    (ht : tokens (trimBlanks (stripComment line)) = first :: rest) (hm : lookupMnemonic first = none) :
    parseLine line = none := by
  simp only [parseLine, ht, hm]

/-- R62, R65: a line that asks for nothing emits nothing. -/
theorem emitLines_of_parseLine_none {P : Params} {line : List Char} (h : parseLine line = none)
    (emitted : List Byte) (rest : List (List Char)) : emitLines P emitted (line :: rest) = emitLines P emitted rest := by
  simp only [emitLines, h]

/-! ### The image a load takes -/

/-- R34: a list of words gives the addresses it reaches. -/
theorem imageWord_of_getElem? (P : Params) {words : List Byte} {a : Addr} {w : Byte} (h : words[a.toNat]? = some w) :
    imageWord P (words.map fun w : Byte => (w.toNat : Int)) a = w := by
  simp [imageWord, h]

/-- R34: beyond the list the image policy decides (decisions D6, D32). -/
theorem imageWord_of_length_le (P : Params) {words : List Int} {a : Addr} (h : words.length ≤ a.toNat) :
    imageWord P words a = if P.dataBase ≤ a.toNat then P.dataSeed a else 0 := by
  rw [imageWord, List.getElem?_eq_none h]

@[simp] theorem assemble_length (P : Params) (source : List (List Char)) :
    (assemble P source).length = memorySize := by
  simp [assemble]

/-- R69, R71: the image is whole, so loading it gives each address the word the source gives it. -/
theorem imageWord_assemble (P : Params) (source : List (List Char)) (a : Addr) :
    imageWord P ((assemble P source).map fun w : Byte => (w.toNat : Int)) a =
      imageWord P ((assembleWords P source).map fun w : Byte => (w.toNat : Int)) a := by
  apply imageWord_of_getElem?
  rw [assemble, List.getElem?_map, List.getElem?_range (addr_lt a), Option.map_some]
  simp

/-- R71, R164: an assembly always completes, with the registers cleared and the image of the source in memory. -/
theorem assembleEvent_eq (P : Params) (source : List (List Char)) (s : State) :
    assembleEvent P source s = .next (s.clearRegisters.setMem (Memory.ofImage
      (imageWord P ((assembleWords P source).map fun w : Byte => (w.toNat : Int))))) := by
  rw [assembleEvent, loadEvent, if_pos (by simp [loadListWf]), funext (imageWord_assemble P source)]

end Sys2Proof.Machine

namespace Sys2Proof.Proofs

open Sys2Proof.Machine

/-- Settles O8: each of the three forms of an instruction is decoded from its own word. -/
theorem decodeEncodeRoundTrip : Obligations.DecodeEncodeRoundTrip := by
  intro P i hP hi
  rcases i.ofMnemonic_or_ofUnassigned_or_ofLc3d with ⟨m, a, rfl⟩ | ⟨k, a, hk, rfl⟩ | ⟨op, dr, sr1, src, rfl⟩
  · rw [encodeWith_ofMnemonic]
    exact decodeToy8_toy8Word hP m a
  · rw [encodeWith_ofUnassigned P hk]
    exact decodeToy8_unassignedWord hP hk a
  · rw [encodeWith_ofLc3d]
    exact decodeLc3d_lc3dWord op dr sr1 (Instr.wf_ofLc3d op dr sr1 src ▸ hi)

/-- Settles O9: the fields of a word compose it, in both formats, and the immediate a word shows is in the signed range. -/
theorem encodeDecodeRoundTrip : Obligations.EncodeDecodeRoundTrip := by
  intro P c hP
  cases c with
  | toy8 w => exact ⟨encodeWith_decodeToy8 hP w, decodeToy8_wf P w⟩
  | lc3d w =>
    constructor
    · rw [decodeWith, decodeLc3d, encodeWith_ofLc3d, lc3dWord_fields]
    · rw [decodeWith, decodeLc3d, Instr.wf_ofLc3d]
      exact lc3dOperandOf_wf w

/-- Settles O54: both bounds by induction over the lines, and the last line emits nothing or one word. -/
theorem atMostOneWordPerLine : Obligations.AtMostOneWordPerLine := by
  intro P source line
  have hlines : (assembleWords P source).length ≤ source.length := by
    simpa [assembleWords] using emitLines_length_le P [] source
  refine ⟨hlines, assembleWords_length_le_dataBase P source, ?_⟩
  simp only [assembleWords, emitLines_append]
  exact (emitLines_singleton_cases P (emitLines P [] source) line).imp_right And.right

/-- Settles O55: either kind of line asks for nothing, whatever was emitted before it. -/
theorem unrecognisedLinesEmitNothing : Obligations.UnrecognisedLinesEmitNothing := by
  intro P before after line h
  have hnone : parseLine line = none := by
    rcases h with hblank | ⟨first, rest, ht, hm⟩
    · exact parseLine_of_blank hblank
    · exact parseLine_of_unknown ht hm
  simp only [assembleWords, emitLines_append, emitLines_of_parseLine_none hnone]

/-- Settles O57: each address reads as the word the source's image gives it; the data region is DATA_SEED because the
emitted words end below it. -/
theorem assembledImageIsLoaded : Obligations.AssembledImageIsLoaded := by
  intro P s source _
  refine ⟨_, assembleEvent_eq P source s, rfl, rfl, rfl, rfl, fun a => ?_⟩
  rw [State.setMem_mem, Memory.read_ofImage]
  have hbeyond : (assembleWords P source).length ≤ a.toNat →
      imageWord P ((assembleWords P source).map fun w : Byte => (w.toNat : Int)) a =
        if P.dataBase ≤ a.toNat then P.dataSeed a else 0 :=
    fun h => imageWord_of_length_le P (by simpa using h)
  refine ⟨fun w hw => congrArg some (imageWord_of_getElem? P hw), fun hlen hlt => ?_, fun hge => ?_⟩
  · rw [hbeyond hlen, if_neg (Nat.not_le.mpr hlt)]
  · rw [hbeyond ((assembleWords_length_le_dataBase P source).trans hge), if_pos hge]

/-- Settles O6: the number `toy8Word_toNat` gives, and the two fields of it. -/
theorem toy8FieldsRoundTrip : Obligations.Toy8FieldsRoundTrip := by
  refine ⟨fun w => ?_, fun op a => ?_, fun op d => ?_⟩
  · exact ⟨opcodeOf_eq_extractLsb' w, operandOf_eq_extractLsb' w, toy8Word_fields w⟩
  · refine ⟨?_, opcodeOf_toy8Word op a, operandOf_toy8Word op a⟩
    rw [toy8Word_toNat, maskNat_of_lt a.isLt]
  · apply BitVec.eq_of_toNat_eq
    rw [toy8Word_toNat, toy8Word_toNat, maskNat_maskNat]

/-- Settles O27: every unassigned row is the one shared fail-stop, whatever its operand. -/
theorem unassignedOpcodeFailStops : Obligations.UnassignedOpcodeFailStops := by
  intro s a
  have fails : ∀ k, exec (Instr.ofUnassigned k a) s = .next { s with phase := .halted } :=
    fun k => exec_ofUnassigned k a s
  exact ⟨fails 0, fails 1, fails 2, fails 3, fails 4, fails 5, fails 6, fails 7, fails 8⟩

end Sys2Proof.Proofs
end

section
/-! PROOFS. The family spec/40_codec_and_lc3_decode.md: extractField (R80), the laws of signExtend (R83), composeWord (R84,
R85) and its round trip with decompose (R86), and what the LC3D unit shows of an operand (R57, R89). The fields of a word by
layout are named once (`layoutFields`), as the numbers decompose answers; both round trips are inductions over the layout. -/

namespace Sys2Proof.Machine

/-! ### extractField -/

/-- R80: what extractField answers on its domain. -/
theorem extractField_of_range {W w hi lo : Nat} (hw : w < 2 ^ W) (hlo : lo ≤ hi) (hhi : hi < W) :
    extractField W w hi lo = some (slice w hi lo) := by
  rw [extractField, if_pos ⟨hlo, hhi⟩, Nat.mod_eq_of_lt hw]

/-- R81: no result outside the domain, and only there. -/
theorem extractField_eq_none {W w hi lo : Nat} : extractField W w hi lo = none ↔ hi < lo ∨ W ≤ hi := by
  rw [extractField, ite_eq_right_iff]
  simp only [reduceCtorEq, imp_false]
  omega

/-- R81: a wider word is masked first. -/
theorem extractField_mod (W w hi lo : Nat) : extractField W (w % 2 ^ W) hi lo = extractField W w hi lo := by
  rw [extractField, extractField, Nat.mod_mod]

/-- R6: a slice has no more bits than its range. -/
theorem slice_lt (v hi lo : Nat) : slice v hi lo < 2 ^ (hi - lo + 1) := Nat.mod_lt _ (Nat.two_pow_pos _)

/-- R6: a slice bit by bit. -/
theorem testBit_slice (v hi lo i : Nat) :
    (slice v hi lo).testBit i = (decide (i ≤ hi - lo) && v.testBit (lo + i)) := by
  rw [slice, Nat.testBit_mod_two_pow, Nat.testBit_div_two_pow]
  simp only [Nat.lt_succ_iff, Nat.add_comm]

/-! ### signExtend -/

/-- The top bit of a value that fits says in which half of the unsigned range it is. -/
theorem testBit_top {n v : Nat} (hv : v < 2 ^ n) : v.testBit (n - 1) = decide (2 ^ (n - 1) ≤ v) :=
  (BitVec.msb_eq_getLsbD_last (BitVec.ofNatLT v hv)).symm.trans (BitVec.msb_eq_decide _)

/-- R83: a value of the lower half is its own signed value. -/
theorem sext_of_lt_half {n v : Nat} (hv : v < 2 ^ (n - 1)) : sext n v = v := by
  have hfit : v < 2 ^ n := hv.trans_le (Nat.pow_le_pow_right (by decide) (Nat.sub_le n 1))
  rw [sext, maskNat_of_lt hfit, if_pos hv]

/-- R83: a value of the upper half stands for the negative number 2^n below it. -/
theorem sext_of_half_le {n v : Nat} (hv : v < 2 ^ n) (hhalf : 2 ^ (n - 1) ≤ v) :
    sext n v = (v : Int) - ((2 ^ n : Nat) : Int) := by
  rw [sext, maskNat_of_lt hv, if_neg (Nat.not_lt.mpr hhalf)]

/-- R83: masking undoes the sign extension. -/
theorem maskNat_sext (n : Nat) (v : Int) : maskNat n (sext n v) = maskNat n v := by
  rw [maskNat, sext_emod, maskNat]

/-- R83: the all-ones pattern is -1. -/
theorem sext_all_ones {n : Nat} (hn : 1 ≤ n) : sext n ((2 ^ n - 1 : Nat) : Int) = -1 := by
  have hpos := Nat.two_pow_pos (n - 1)
  have hhalves := Nat.two_pow_pred_add_two_pow_pred hn
  rw [sext_of_half_le (by omega) (by omega)]
  omega

/-- R83: the sign bit alone is the most negative number. -/
theorem sext_sign_bit {n : Nat} (hn : 1 ≤ n) :
    sext n ((2 ^ (n - 1) : Nat) : Int) = -((2 ^ (n - 1) : Nat) : Int) := by
  have hpos := Nat.two_pow_pos (n - 1)
  have hhalves := Nat.two_pow_pred_add_two_pow_pred hn
  rw [sext_of_half_le (by omega) le_rfl]
  omega

/-! ### composeWord -/

/-- R85: packing masks each field to its own width. -/
theorem packFields_map_mask (acc : Nat) (fields : List (Int × Nat)) :
    packFields acc (fields.map fun f : Int × Nat => ((maskNat f.2 f.1 : Int), f.2)) = packFields acc fields := by
  induction fields generalizing acc with
  | nil => rfl
  | cons f fields ih =>
    simp only [List.map_cons, packFields, maskNat_maskNat]
    exact ih _

/-- R84: the first field stands above all the later ones. -/
theorem packFields_zero_cons (f : Int × Nat) (fields : List (Int × Nat)) :
    packFields 0 (f :: fields) = maskNat f.2 f.1 * 2 ^ (fields.map Prod.snd).sum + packFields 0 fields := by
  rw [packFields, Nat.zero_mul, Nat.zero_add, packFields_eq]

/-- R84: fields that fit the word are packed with nothing lost. -/
theorem composeWord_of_fits {W : Nat} {fields : List (Int × Nat)} (h : (fields.map Prod.snd).sum ≤ W) :
    composeWord W fields = packFields 0 fields :=
  Nat.mod_eq_of_lt ((packFields_lt fields).trans_le (Nat.pow_le_pow_right (by decide) h))

theorem composeWord_lt (W : Nat) (fields : List (Int × Nat)) : composeWord W fields < 2 ^ W :=
  Nat.mod_lt _ (Nat.two_pow_pos W)

/-- R84: one further field at the end. -/
theorem composeWord_append (W : Nat) (fields : List (Int × Nat)) (f : Int × Nat) :
    composeWord W (fields ++ [f]) = (composeWord W fields * 2 ^ f.2 + maskNat f.2 f.1) % 2 ^ W := by
  rw [composeWord, packFields_append, composeWord]
  exact ((Nat.mod_modEq _ _).mul_right _ |>.add_right _).symm

/-- R84: a first field that still fits stands above the rest. -/
theorem composeWord_cons_of_fits {W : Nat} {f : Int × Nat} {fields : List (Int × Nat)}
    (h : f.2 + (fields.map Prod.snd).sum ≤ W) :
    composeWord W (f :: fields) = maskNat f.2 f.1 * 2 ^ (fields.map Prod.snd).sum + composeWord W fields := by
  rw [composeWord_of_fits (by simpa using h), packFields_zero_cons, composeWord_of_fits (by omega)]

/-- R85 (decision D16): a first field that the later ones push out of the word is lost. -/
theorem composeWord_cons_of_lost {W : Nat} (f : Int × Nat) {fields : List (Int × Nat)}
    (h : W ≤ (fields.map Prod.snd).sum) : composeWord W (f :: fields) = composeWord W fields := by
  obtain ⟨q, hq⟩ := (Nat.pow_dvd_pow 2 h).mul_left (maskNat f.2 f.1)
  rw [composeWord, packFields_zero_cons, hq, Nat.mul_add_mod, composeWord]

/-! ### decompose -/

/-- The fields of a word for a layout whose last field ends at bit 0, most significant first (R86). -/
def layoutFields (w : Nat) : List Nat → List Nat
  | [] => []
  | width :: layout => w / 2 ^ layout.sum % 2 ^ width :: layoutFields w layout

@[simp] theorem layoutFields_length (w : Nat) (layout : List Nat) : (layoutFields w layout).length = layout.length := by
  induction layout with
  | nil => rfl
  | cons width layout ih => rw [layoutFields, List.length_cons, List.length_cons, ih]

/-- R86: the consecutive ranges of a layout whose last field ends at bit 0 are the fields of the word. -/
theorem decomposeFrom_sum {W w : Nat} {layout : List Nat} (hw : w < 2 ^ W) (hpos : ∀ n ∈ layout, 0 < n)
    (hsum : layout.sum ≤ W) : decomposeFrom W w layout.sum layout = some (layoutFields w layout) := by
  induction layout with
  | nil => rfl
  | cons width layout ih =>
    rw [List.sum_cons] at hsum
    obtain ⟨hwidth, hrest⟩ := List.forall_mem_cons.mp hpos
    have hlow : width + layout.sum - width = layout.sum := Nat.add_sub_cancel_left ..
    have hbits : width + layout.sum - 1 - layout.sum + 1 = width := by omega
    rw [List.sum_cons, decomposeFrom, if_neg (by omega), hlow, extractField_of_range hw (by omega) (by omega),
      ih hrest (by omega), slice, hbits, layoutFields]

/-- R86: decompose for a layout that covers the word. -/
theorem decompose_eq {W w : Nat} {layout : List Nat} (hw : w < 2 ^ W) (hpos : ∀ n ∈ layout, 0 < n)
    (hsum : layout.sum = W) : decompose W w layout = some (layoutFields w layout) := by
  subst hsum
  exact decomposeFrom_sum hw hpos le_rfl

/-- Field values paired with their widths, as composeWord takes them: the widths are the layout's. -/
theorem widths_zip {fs layout : List Nat} (h : fs.length = layout.length) :
    ((fs.map fun f : Nat => (f : Int)).zip layout).map Prod.snd = layout :=
  List.map_snd_zip (by simp [h])

/-- R86: packing the fields of a word gives the bits the layout covers. -/
theorem packFields_layoutFields (w : Nat) (layout : List Nat) :
    packFields 0 (((layoutFields w layout).map fun f : Nat => (f : Int)).zip layout) = w % 2 ^ layout.sum := by
  induction layout with
  | nil => exact (Nat.mod_one w).symm
  | cons width layout ih =>
    rw [layoutFields, List.map_cons, List.zip_cons_cons, packFields_zero_cons, ih,
      widths_zip (layoutFields_length w layout), maskNat_of_lt (Nat.mod_lt _ (Nat.two_pow_pos _)), List.sum_cons,
      Nat.pow_add', Nat.mod_mul, Nat.mul_comm, Nat.add_comm]

/-- R86: the fields of packed field values are these values, whatever stands above them. -/
theorem layoutFields_packFields (acc : Nat) {fs layout : List Nat} (hlen : fs.length = layout.length)
    (hfit : ∀ c ∈ fs.zip layout, c.1 < 2 ^ c.2) :
    layoutFields (packFields acc ((fs.map fun f : Nat => (f : Int)).zip layout)) layout = fs := by
  induction layout generalizing acc fs with
  | nil => exact (List.length_eq_zero_iff.mp hlen).symm
  | cons width layout ih =>
    cases fs with
    | nil => cases hlen
    | cons f fs =>
      have hlen' : fs.length = layout.length := Nat.succ.inj hlen
      obtain ⟨hf, hrest⟩ := List.forall_mem_cons.mp hfit
      have hlow := packFields_lt ((fs.map fun f : Nat => (f : Int)).zip layout)
      rw [widths_zip hlen'] at hlow
      rw [List.map_cons, List.zip_cons_cons, packFields, layoutFields, ih _ hlen' hrest, maskNat_of_lt hf]
      congr 1
      rw [packFields_eq, widths_zip hlen', Nat.add_comm, Nat.add_mul_div_right _ _ (Nat.two_pow_pos _),
        Nat.div_eq_of_lt hlow, Nat.zero_add, Nat.mul_add_mod', Nat.mod_eq_of_lt hf]

/-! ### What the LC3D unit shows of an operand -/

/-- R58, R89: opcode 1 is the named one. -/
theorem lc3dName_eq_some_add {op : Opcode} : lc3dName op = some "ADD" ↔ op = 1 := by
  rw [lc3dName, ite_eq_left_iff]
  simp

/-- R89: no other opcode has a name. -/
theorem lc3dName_eq_none {op : Opcode} : lc3dName op = none ↔ op ≠ 1 := by
  rw [lc3dName, ite_eq_right_iff]
  simp

/-- R57: the immediate shown is the signed value of the operand's 5-bit field. -/
theorem immediateOf_imm (v : Int) : immediateOf (.imm v) = some (sext 5 v) := by
  rw [immediateOf, sext_eq_toInt_mask, mask_natCast_toNat, sext_eq_toInt_mask]

end Sys2Proof.Machine

namespace Sys2Proof.Proofs

open Sys2Proof.Machine

/-- Settles O1: on its domain extractField is the slice, whose bits are those of the word from `lo` up. -/
theorem extractFieldReadsBits : Obligations.ExtractFieldReadsBits := by
  intro W w hi lo
  refine ⟨fun hw hlo hhi => ?_, extractField_eq_none, (extractField_mod W w hi lo).symm⟩
  exact ⟨slice w hi lo, extractField_of_range hw hlo hhi, rfl, slice_lt w hi lo, testBit_slice w hi lo⟩

/-- Settles O3: the top bit picks the half of the unsigned range, and each half has its signed value; the examples are
evaluated. -/
theorem signExtendLaws : Obligations.SignExtendLaws := by
  refine ⟨fun W v hW hv => ?_, fun W hW => ?_, by decide⟩
  · rw [signExtend_of_pos _ hW, testBit_top hv]
    refine ⟨fun hbit => ?_, fun hbit => ?_, ?_⟩
    · rw [sext_of_lt_half (Nat.not_le.mp (of_decide_eq_false hbit))]
    · rw [sext_of_half_le hv (of_decide_eq_true hbit)]
    · rintro r ⟨⟩
      rw [maskNat_sext, maskNat_of_lt hv]
  · rw [signExtend_of_pos _ hW, signExtend_of_pos _ hW, sext_all_ones hW, sext_sign_bit hW]
    exact ⟨rfl, rfl⟩

/-- Settles O4: each clause is a fact about the packed number, reduced modulo 2^W. -/
theorem composeWordMasksFields : Obligations.ComposeWordMasksFields := by
  intro W fields
  refine ⟨?_, composeWord_lt W fields, (Nat.mod_le _ _).trans_lt (packFields_lt fields), Nat.zero_mod _,
    fun f => ⟨composeWord_append W fields f, composeWord_cons_of_fits, composeWord_cons_of_lost f⟩⟩
  rw [composeWord, composeWord, packFields_map_mask]

/-- Settles O5: decompose answers the fields by layout, which pack to the word; fields packed within their widths are
the fields by layout of what they pack to. -/
theorem composeDecomposeRoundTrip : Obligations.ComposeDecomposeRoundTrip := by
  intro W layout hpos hsum
  have hcompose : ∀ fs : List Nat, fs.length = layout.length →
      composeWord W ((fs.map fun f : Nat => (f : Int)).zip layout) =
        packFields 0 ((fs.map fun f : Nat => (f : Int)).zip layout) :=
    fun fs hlen => composeWord_of_fits (by rw [widths_zip hlen, hsum])
  constructor
  · intro w hw
    have hlen := layoutFields_length w layout
    refine ⟨layoutFields w layout, decompose_eq hw hpos hsum, hlen, ?_⟩
    rw [hcompose _ hlen, packFields_layoutFields, hsum, Nat.mod_eq_of_lt hw]
  · intro fs hlen hfit
    rw [decompose_eq (composeWord_lt W _) hpos hsum, hcompose fs hlen, layoutFields_packFields 0 hlen hfit]

/-- Settles O32: the name is read off the opcode number; a raw operand has mode 0 and shows no immediate, an immediate
operand has mode 1 and shows the signed value of its field. -/
theorem lc3dImmediateAndName : Obligations.Lc3dImmediateAndName := by
  intro op dr sr1 src
  refine ⟨lc3dName_eq_some_add, lc3dName_eq_none, ?_⟩
  cases src with
  | raw bits => exact ⟨fun _ => rfl, fun hmode : (0 : BitVec 1) = 1 => absurd hmode (by decide)⟩
  | imm v =>
    refine ⟨fun hmode : (1 : BitVec 1) = 0 => absurd hmode (by decide), fun _ => ⟨sext 5 v, immediateOf_imm v,
      neg_two_pow_le_sext 5 v, Int.le_of_lt_add_one (sext_lt_two_pow 5 v), sext_eq_toInt_mask 5 v, ?_⟩⟩
    exact (congrArg (Option.map (mask 16)) (immediateOf_imm v)).trans (congrArg some (mask_sext 16 5 v))

end Sys2Proof.Proofs
end

section
/-! PROOFS. The family spec/41_control_fsm.md: each phase of the step event in one equation (R102, R103, R104), the three of
them from Fetch as one instruction (R106), and what exec and a step event leave unchanged (R26, R105). -/

namespace Sys2Proof

open Sys2Proof.Machine

/-- R59: an instruction whose word has 8 bits is no LC3D row, so it carries no immediate to be out of range. -/
theorem Instr.wf_of_encodeWith_toy8 {P : Params} {i : Instr} {w : Byte} (h : encodeWith P i = .toy8 w) : i.wf := by
  rcases i.ofMnemonic_or_ofUnassigned_or_ofLc3d with ⟨m, a, rfl⟩ | ⟨k, a, -, rfl⟩ | ⟨op, dr, sr1, src, rfl⟩
  · exact Instr.wf_ofMnemonic m a
  · exact Instr.wf_ofUnassigned k a
  · rw [encodeWith_ofLc3d] at h
    cases h

/-- R51, R104: the word of an instruction decodes to that instruction alone. -/
theorem decodeToy8_of_encodeWith {P : Params} {i : Instr} {w : Byte} (hP : P.wf) (h : encodeWith P i = .toy8 w) :
    decodeToy8 P w = i := by
  have hround := Proofs.decodeEncodeRoundTrip P i hP (Instr.wf_of_encodeWith_toy8 h)
  rwa [h] at hround

end Sys2Proof

namespace Sys2Proof.Machine

/-! ### The step event by phase -/

/-- R102: the step event in Fetch. -/
theorem stepEvent_of_fetch {P : Params} {s : State} (hp : s.phase = .fetch) : stepEvent P s = fetchPhase s := by
  rw [stepEvent, hp]

/-- R102: the step event in Fetch on a word that has a value. -/
theorem stepEvent_fetch {P : Params} {s : State} {w : Byte} (hp : s.phase = .fetch)
    (hw : s.mem.read s.pc.toNat = some w) :
    stepEvent P s = .next { s with ir := w, pc := s.pc + 1, phase := .decode, response := .status .ok } := by
  rw [stepEvent_of_fetch hp, fetchPhase_eq, hw]

/-- R103: the step event in Decode. -/
theorem stepEvent_decode {P : Params} {s : State} (hp : s.phase = .decode) :
    stepEvent P s = .next { s with phase := .execute, response := .status .ok } := by
  rw [stepEvent, hp]
  rfl

/-- R104: the step event in Execute. -/
theorem stepEvent_execute {P : Params} {s : State} (hp : s.phase = .execute) :
    stepEvent P s = exec (decodeToy8 P s.ir) { s with response := .status .ok } := by
  have e : stepEvent P s = executePhase P s := by rw [stepEvent, hp]
  exact e

/-- R104: the step event in Execute, when IR holds the word of an instruction. -/
theorem stepEvent_execute_of_encodeWith {P : Params} {s : State} {i : Instr} (hP : P.wf) (hp : s.phase = .execute)
    (hi : encodeWith P i = .toy8 s.ir) : stepEvent P s = exec i { s with response := .status .ok } := by
  rw [stepEvent_execute hp, decodeToy8_of_encodeWith hP hi]

/-- A queued step event leaves the queue and is performed (assumption 5). -/
theorem stepWith_of_step_input {P : Params} {s : State} {es : List HostEvent} (h : s.inputs = .step :: es) :
    stepWith P s = stepEvent P { s with inputs := es } := by
  rw [stepWith, nextEvent, h]
  rfl

/-! ### Runs of three step events -/

theorem runWith_one (P : Params) (s : State) : runWith P 1 s = stepWith P s := runWith_last P 0 s

/-- A run that answers a next state made its first step. -/
theorem runWith_succ_next {P : Params} {n : Nat} {s t : State} (h : runWith P (n + 1) s = .next t) :
    ∃ u, stepWith P s = .next u ∧ runWith P n u = .next t := by
  rw [runWith] at h
  split at h
  · exact ⟨_, by assumption, h⟩
  · cases h
  · cases h

/-- R106: Fetch, Decode and Execute of the word at PC, in one equation (decision D25). -/
theorem runWith_three {P : Params} {s : State} {w : Byte} (hp : s.phase = .fetch) (hin : s.inputs = [])
    (hw : s.mem.read s.pc.toNat = some w) :
    runWith P 3 s =
      exec (decodeToy8 P w) { s with ir := w, pc := s.pc + 1, phase := .execute, response := .status .ok } :=
  calc runWith P 3 s
    _ = runWith P 2 { s with ir := w, pc := s.pc + 1, phase := .decode, response := .status .ok } :=
      runWith_succ ((stepWith_of_no_input hin).trans (stepEvent_fetch hp hw))
    _ = runWith P 1 { s with ir := w, pc := s.pc + 1, phase := .execute, response := .status .ok } :=
      runWith_succ ((stepWith_of_no_input (by exact hin)).trans (stepEvent_decode rfl))
    _ = exec (decodeToy8 P w) { s with ir := w, pc := s.pc + 1, phase := .execute, response := .status .ok } :=
      (runWith_one P _).trans ((stepWith_of_no_input (by exact hin)).trans (stepEvent_execute rfl))

/-- R106, R166: three step events that answer a next state began at a word that has a value. -/
theorem runWith_three_next {P : Params} {s t : State} (hp : s.phase = .fetch) (hin : s.inputs = [])
    (h : runWith P 3 s = .next t) :
    ∃ w, s.mem.read s.pc.toNat = some w ∧
      exec (decodeToy8 P w) { s with ir := w, pc := s.pc + 1, phase := .execute, response := .status .ok } = .next t := by
  obtain ⟨u, hu, -⟩ := runWith_succ_next h
  rw [stepWith_of_no_input hin, stepEvent_of_fetch hp] at hu
  obtain ⟨w, hw, -⟩ := readThen_next hu
  exact ⟨w, hw, runWith_three hp hin hw ▸ h⟩

/-- R132, R134: an Execute step that halts changes PHASE and nothing else, for HALT and the fail-stop alike. -/
theorem exec_decodeToy8_halted {P : Params} {w : Byte} {s t : State} (h : exec (decodeToy8 P w) s = .next t)
    (ht : t.phase = .halted) : t = { s with phase := .halted } := by
  rcases decodeToy8_cases P w with ⟨m, -, e⟩ | ⟨-, k, e⟩ <;> rw [e] at h
  · have hphase := exec_ofMnemonic_phase h
    by_cases hm : m = .halt
    · subst hm
      cases h
      rfl
    · rw [ht, if_neg hm] at hphase
      cases hphase
  · rw [exec_ofUnassigned] at h
    cases h
    rfl

end Sys2Proof.Machine

namespace Sys2Proof.Proofs

open Sys2Proof.Machine

/-- Settles O33: the Fetch step in one equation. -/
theorem fetchStep : Obligations.FetchStep := by
  intro P s w hp hw
  exact stepEvent_fetch hp hw

/-- Settles O34: IR decodes to the instruction whose word it is, and the queue only decides how the step event is found. -/
theorem executeStepRunsDecodedInstruction : Obligations.ExecuteStepRunsDecodedInstruction := by
  intro P s i hP hp hi
  constructor
  · intro hin
    exact (stepWith_of_no_input hin).trans (stepEvent_execute_of_encodeWith hP hp hi)
  · intro es hes
    exact (stepWith_of_step_input hes).trans (stepEvent_execute_of_encodeWith hP hp hi)

/-- Settles O35: Fetch, Decode and Execute in turn, and the word at PC decodes to the instruction whose word it is. -/
theorem instructionCycle : Obligations.InstructionCycle := by
  intro P s i w hP hp hin hw hi
  rw [runWith_three hp hin hw, decodeToy8_of_encodeWith hP hi]

/-- Settles O47: the word at PC went to IR and PC counted on in Fetch; the Execute step that halts changed PHASE alone. -/
theorem haltedPcIsOnePastTheWord : Obligations.HaltedPcIsOnePastTheWord := by
  intro P s t hp hin h ht
  obtain ⟨w, hw, he⟩ := runWith_three_next hp hin h
  cases exec_decodeToy8_halted he ht
  exact ⟨BitVec.add_sub_cancel s.pc 1, hw, rfl, rfl⟩

/-- Settles O23: the seven results one by one; STORE's write is seen at its own address alone. -/
theorem toy8InstructionFrame : Obligations.Toy8InstructionFrame := by
  intro m a s t h
  rcases exec_ofMnemonic_next h with ⟨rfl, v, -, rfl⟩ | ⟨rfl, v, -, rfl⟩ | ⟨rfl, v, -, rfl⟩ | ⟨rfl, rfl⟩ | ⟨rfl, rfl⟩ |
    ⟨rfl, rfl⟩ | ⟨rfl, rfl⟩
  · simp
  · simp
  · simp
  · exact ⟨rfl, rfl, rfl, fun _ _ _ => rfl, fun _ _ => rfl, fun hne => absurd rfl hne,
      fun _ _ hx => Memory.read_write_other s.mem s.ac hx⟩
  · simp
  · simp
  · simp

/-- R26: each of the seven instructions keeps two of AC, memory and PC. -/
theorem exec_ofMnemonic_keeps_two {m : Mnemonic} {a : Addr} {s t : State}
    (h : exec (Instr.ofMnemonic m a) s = .next t) :
    (t.ac = s.ac ∧ t.mem = s.mem) ∨ (t.ac = s.ac ∧ t.pc = s.pc) ∨ (t.mem = s.mem ∧ t.pc = s.pc) := by
  obtain ⟨-, -, -, hac, hpc, hmem, -⟩ := toy8InstructionFrame m a s t h
  cases m with
  | load | add | sub => exact .inr (.inr ⟨hmem nofun, hpc nofun nofun⟩)
  | store => exact .inr (.inl ⟨hac nofun nofun nofun, hpc nofun nofun⟩)
  | jump | jumpIfZero | halt => exact .inl ⟨hac nofun nofun nofun, hmem nofun⟩

/-- R26, R104: what the Execute step keeps: the queue and IR, two of AC, memory and PC. -/
theorem exec_decodeToy8_keeps {P : Params} {w : Byte} {s t : State} (h : exec (decodeToy8 P w) s = .next t) :
    t.inputs = s.inputs ∧ t.ir = s.ir ∧
      ((t.ac = s.ac ∧ t.mem = s.mem) ∨ (t.ac = s.ac ∧ t.pc = s.pc) ∨ (t.mem = s.mem ∧ t.pc = s.pc)) := by
  rcases decodeToy8_cases P w with ⟨m, -, e⟩ | ⟨-, k, e⟩ <;> rw [e] at h
  · obtain ⟨hir, hin, -⟩ := toy8InstructionFrame m (operandOf w) s t h
    exact ⟨hin, hir, exec_ofMnemonic_keeps_two h⟩
  · rw [exec_ofUnassigned] at h
    cases h
    exact ⟨rfl, rfl, .inl ⟨rfl, rfl⟩⟩

/-- R26: a step event changes no memory word but the one at the operand address. -/
theorem stepEvent_read_other {P : Params} {s t : State} (h : stepEvent P s = .next t) {x : Nat}
    (hx : x ≠ (operandOf s.ir).toNat) : t.mem.read x = s.mem.read x := by
  rcases (stepEvent_writes h).mem with e | ⟨-, -, e⟩ <;> rw [e]
  exact Memory.read_write_other s.mem s.ac hx

/-- Settles O40: in Fetch, Decode and Halted the next state is written out; in Execute the instruction's frame says it. -/
theorem writePorts : Obligations.WritePorts := by
  intro P s t h
  rcases stepEvent_next h with ⟨hp, w, -, rfl⟩ | ⟨hp, rfl⟩ | ⟨hp, he⟩ | ⟨hp, rfl⟩
  · simp [hp]
  · simp [hp]
  · obtain ⟨hin, hir, htwo⟩ := exec_decodeToy8_keeps he
    refine ⟨hin, ?_, ?_, fun _ => ⟨hir, htwo, fun x hx => stepEvent_read_other h hx⟩, ?_⟩ <;> simp [hp]
  · simp [hp, State.snapshot]

end Sys2Proof.Proofs
end

section
/-! PROOFS. The family spec/42_memory_reference.md: LOAD and STORE, their encoding and their result (R120, R123), and the
STORE to the address in PC that the next Fetch reads (R43). -/

namespace Sys2Proof

/-- R51, R53: a TOY8 word is its opcode number followed by its operand. -/
theorem toy8Word_eq_append (op : Opcode) (a : Addr) : toy8Word op a.toNat = op ++ a := by
  apply BitVec.eq_of_toNat_eq
  rw [toy8Word_toNat, Machine.maskNat_of_lt a.isLt, BitVec.toNat_append, ← Nat.shiftLeft_add_eq_or_of_lt a.isLt,
    Nat.shiftLeft_eq]

/-- R53: the word of one of the seven instructions is its opcode number followed by the operand. -/
theorem encodeWith_ofMnemonic_eq_append (P : Params) (m : Mnemonic) (a : Addr) :
    encodeWith P (Instr.ofMnemonic m a) = .toy8 (P.opc m ++ a) := by
  rw [encodeWith_ofMnemonic, toy8Word_eq_append]

end Sys2Proof

namespace Sys2Proof.Machine

/-- R104, R123: the step event in Execute, when IR holds a STORE. -/
theorem stepEvent_execute_store {P : Params} {s : State} (hP : P.wf) (hp : s.phase = .execute)
    (hop : opcodeOf s.ir = P.opc .store) :
    stepEvent P s = .next { s with
      mem := s.mem.write (operandOf s.ir).toNat s.ac, phase := .fetch, response := .status .ok } := by
  rw [stepEvent_execute hp, decodeToy8_of_opc hP hop]
  exact execStore_eq (operandOf s.ir) _

end Sys2Proof.Machine

namespace Sys2Proof.Proofs

open Sys2Proof.Machine

/-- Settles O16: the Execute step writes AC at PC, so the Fetch step reads AC there, whatever memory held before. -/
theorem storeIsSeenByNextFetch : Obligations.StoreIsSeenByNextFetch := by
  intro P s hP hp hin hop hpc
  have hstore := (stepWith_of_no_input hin).trans (stepEvent_execute_store hP hp hop)
  have hread : (s.mem.write (operandOf s.ir).toNat s.ac).read s.pc.toNat = some s.ac := by
    rw [hpc]
    exact Memory.read_write_same s.mem s.pc.toNat s.ac
  rw [runWith_succ hstore, runWith_one, stepWith_of_no_input (by exact hin)]
  exact ⟨_, stepEvent_fetch rfl hread, rfl, rfl, rfl, rfl⟩

/-- Settles O17: LOAD in one equation, on a word that has a value. -/
theorem loadResult : Obligations.LoadResult := by
  constructor
  · exact fun P a => encodeWith_ofMnemonic_eq_append P .load a
  · intro s a v hv
    rw [exec, execLoad_eq, hv]

/-- Settles O20: STORE in one equation, and read after write for the words. -/
theorem storeResult : Obligations.StoreResult := by
  constructor
  · exact fun P a => encodeWith_ofMnemonic_eq_append P .store a
  · exact fun s a => ⟨execStore_eq a s, Memory.read_write s.mem a.toNat s.ac⟩

end Sys2Proof.Proofs
end

section
/-! PROOFS. The family spec/43_control_transfer.md: JUMP and JUMP_IF_ZERO (R130, R131), the fail-stop (R134) with the
AlreadyHalted steps after it (R107), and what tells the two halts apart (R20). A JUMP to its own address (R147) runs for
ever because every three step events lead back to it, and a run that had halted on the way could not. -/

namespace Sys2Proof.Machine

/-! ### Runs with no host event queued -/

/-- A run of `m + n` steps goes on after its first `m`. -/
theorem runWith_add {P : Params} {m : Nat} {s t : State} (h : runWith P m s = .next t) (n : Nat) :
    runWith P (m + n) s = runWith P n t := by
  induction m generalizing s with
  | zero =>
    cases h
    rw [Nat.zero_add]
  | succ m ih =>
    obtain ⟨u, hu, ht⟩ := runWith_succ_next h
    rw [Nat.add_right_comm, runWith_succ hu, ih ht]

/-- A run that answers a next state has one after any number of its steps. -/
theorem runWith_add_next {P : Params} {m n : Nat} {s t : State} (h : runWith P (m + n) s = .next t) :
    ∃ u, runWith P m s = .next u ∧ runWith P n u = .next t := by
  induction m generalizing s with
  | zero => exact ⟨s, rfl, by rwa [Nat.zero_add] at h⟩
  | succ m ih =>
    rw [Nat.add_right_comm] at h
    obtain ⟨v, hv, ht⟩ := runWith_succ_next h
    obtain ⟨u, hu, hut⟩ := ih ht
    exact ⟨u, (runWith_succ hv).trans hu, hut⟩

/-- Every step of a run with an empty queue is a step event, so the queue stays empty and what step events keep, the run
keeps. -/
theorem runWith_keeps {P : Params} {p : State → Prop} (hstep : ∀ s t, p s → stepEvent P s = .next t → p t)
    {n : Nat} {s t : State} (hin : s.inputs = []) (hs : p s) (h : runWith P n s = .next t) : t.inputs = [] ∧ p t := by
  induction n generalizing s with
  | zero =>
    cases h
    exact ⟨hin, hs⟩
  | succ n ih =>
    obtain ⟨u, hu, ht⟩ := runWith_succ_next h
    rw [stepWith_of_no_input hin] at hu
    obtain ⟨hinputs, -⟩ := Proofs.writePorts P s u hu
    exact ih (hinputs.trans hin) (hstep s u hs hu) ht

/-- R107: the step event in Halted. -/
theorem stepEvent_halted {P : Params} {s : State} (hp : s.phase = .halted) :
    stepEvent P s = .next { s with response := .status .alreadyHalted } := by
  have e : stepEvent P s = haltedPhase s := by rw [stepEvent, hp]
  exact e

/-- R107: step events in Halted, however many, answer AlreadyHalted and change nothing. -/
theorem runWith_halted {P : Params} {s : State} (hp : s.phase = .halted) (hin : s.inputs = []) (n : Nat) :
    runWith P (n + 1) s = .next { s with response := .status .alreadyHalted } := by
  have hstep := (stepWith_of_no_input hin).trans (stepEvent_halted (P := P) hp)
  induction n generalizing s with
  | zero => rw [runWith_one, hstep]
  | succ n ih =>
    rw [runWith_succ hstep]
    exact ih hp hin ((stepWith_of_no_input (by exact hin)).trans (stepEvent_halted hp))

/-- R107: a run that ends outside Halted was not in Halted after any of its steps. -/
theorem runWith_add_next_of_not_halted {P : Params} {m n : Nat} {s t : State} (hin : s.inputs = [])
    (h : runWith P (m + n) s = .next t) (ht : t.phase ≠ .halted) :
    ∃ u, runWith P m s = .next u ∧ u.phase ≠ .halted := by
  obtain ⟨u, hu, hut⟩ := runWith_add_next h
  obtain ⟨huin, -⟩ := runWith_keeps (p := fun _ => True) (fun _ _ _ _ => trivial) hin trivial hu
  refine ⟨u, hu, fun hp => ht ?_⟩
  exact (runWith_keeps (p := fun s => s.phase = .halted) (fun _ _ => stepEvent_halted_phase) huin hp hut).2

/-! ### The fail-stop and the two halts -/

/-- R134: the step event in Execute when no mnemonic has the opcode in IR, for any OPC. -/
theorem stepEvent_execute_unassigned {P : Params} {s : State} (hp : s.phase = .execute)
    (ho : ∀ m, opcodeOf s.ir ≠ P.opc m) :
    stepEvent P s = .next { s with phase := .halted, response := .status .ok } := by
  rw [stepEvent_execute hp, decodeToy8_of_unassigned ho, exec_ofUnassigned]
  rfl

/-- R20: one opcode cannot be HALT's and no mnemonic's. -/
theorem HaltedNormally.not_failStopped {P : Params} {s : State} (h : HaltedNormally P s) : ¬ FailStopped P s := by
  rintro ⟨-, hout⟩
  obtain ⟨-, hhalt⟩ := h
  exact hout .halt hhalt

/-! ### A JUMP to its own address -/

/-- The machine is about to fetch `w`, a JUMP to the address it stands at (R147). -/
structure AtSelfJump (P : Params) (s : State) (w : Byte) : Prop where
  phase : s.phase = .fetch
  inputs : s.inputs = []
  word : s.mem.read s.pc.toNat = some w
  opcode : opcodeOf w = P.opc .jump
  operand : operandOf w = s.pc

/-- Neither IR nor the response decides what is fetched next. -/
theorem AtSelfJump.withIrResponse {P : Params} {s : State} {w : Byte} (h : AtSelfJump P s w) (v : Byte) (r : Response) :
    AtSelfJump P { s with ir := v, response := r } w :=
  ⟨h.phase, h.inputs, h.word, h.opcode, h.operand⟩

/-- R130, R106: the three step events of a JUMP to its own address lead back to it. -/
theorem AtSelfJump.runWith_three {P : Params} {s : State} {w : Byte} (hP : P.wf) (h : AtSelfJump P s w) :
    runWith P 3 s = .next { s with ir := w, response := .status .ok } := by
  obtain ⟨hp, hin, hw, hop, ha⟩ := h
  have hexec := execJump_eq (operandOf w) { s with ir := w, pc := s.pc + 1, phase := .execute, response := .status .ok }
  rw [Machine.runWith_three hp hin hw, decodeToy8_of_opc hP hop, Instr.ofMnemonic, exec, hexec, ha, ← hp]

/-- R147: so does every multiple of three step events. -/
theorem AtSelfJump.runWith_mul {P : Params} {s : State} {w : Byte} (hP : P.wf) (h : AtSelfJump P s w) (n : Nat) :
    runWith P (3 * (n + 1)) s = .next { s with ir := w, response := .status .ok } := by
  induction n generalizing s with
  | zero => exact h.runWith_three hP
  | succ n ih =>
    rw [Nat.mul_succ, Nat.add_comm, runWith_add (h.runWith_three hP)]
    exact ih (h.withIrResponse w (.status .ok))

end Sys2Proof.Machine

namespace Sys2Proof.Proofs

open Sys2Proof.Machine

/-- Settles O28: the fail-stop in one equation, and the machine it leaves is in Halted. -/
theorem unknownOpcodeStepFailStops : Obligations.UnknownOpcodeStepFailStops := by
  intro P s hp ho
  have hstop := stepEvent_execute_unassigned hp ho
  refine ⟨hstop, fun hin n => ?_⟩
  rw [runWith_succ ((stepWith_of_no_input hin).trans hstop)]
  exact runWith_halted (s := { s with phase := .halted, response := .status .ok }) rfl hin n

/-- Settles O29: the machine is back after 3n step events, and the first n of these did not halt it. -/
theorem jumpToItselfNeverHalts : Obligations.JumpToItselfNeverHalts := by
  intro P s w n hP hp hin hw hop ha
  have hback : ∃ t, runWith P (3 * n) s = .next t ∧ t.pc = s.pc ∧ t.phase = .fetch ∧ t.mem = s.mem ∧ t.ac = s.ac := by
    cases n with
    | zero => exact ⟨s, rfl, rfl, hp, rfl, rfl⟩
    | succ n => exact ⟨_, AtSelfJump.runWith_mul hP ⟨hp, hin, hw, hop, ha⟩ n, rfl, hp, rfl, rfl⟩
  refine ⟨hback, ?_⟩
  obtain ⟨t, ht, -, hphase, -, -⟩ := hback
  have hsplit : 3 * n = n + 2 * n := by omega
  rw [hsplit] at ht
  exact runWith_add_next_of_not_halted hin ht (by rw [hphase]; decide)

/-- Settles O46: the Execute step keeps IR, and halts on no other mnemonic than HALT. -/
theorem haltCauseIsReadableFromIr : Obligations.HaltCauseIsReadableFromIr := by
  intro P s t hP hp h ht
  obtain ⟨-, -, -, hkeeps, -⟩ := writePorts P s t h
  obtain ⟨hir, -⟩ := hkeeps hp
  obtain ⟨-, -, htrans, -⟩ := legalPhaseTransitions.1 P s t hP h
  have hnormal : HaltedNormally P t ↔ opcodeOf s.ir = P.opc .halt := by
    rw [HaltedNormally, hir]
    exact and_iff_right ht
  refine ⟨?_, fun ⟨hn, hf⟩ => hn.not_failStopped hf, hnormal, if_pos ht⟩
  rcases htrans hp with ⟨hfetch, -⟩ | ⟨-, hother⟩
  · rw [ht] at hfetch
    cases hfetch
  · by_cases ho : opcodeOf s.ir = P.opc .halt
    · exact .inl (hnormal.mpr ho)
    · refine .inr ⟨ht, fun m => ?_⟩
      rw [hir]
      by_cases hm : m = .halt
      · exact hm ▸ ho
      · exact hother m hm

/-- Settles O24: JUMP in one equation. -/
theorem jumpResult : Obligations.JumpResult := by
  constructor
  · exact fun P a => encodeWith_ofMnemonic_eq_append P .jump a
  · exact fun s a => execJump_eq a s

/-- Settles O25: JUMP_IF_ZERO in one equation, by the value of AC. -/
theorem jumpIfZeroResult : Obligations.JumpIfZeroResult := by
  constructor
  · exact fun P a => encodeWith_ofMnemonic_eq_append P .jumpIfZero a
  · intro s a
    refine ⟨fun hz => ?_, fun hnz => ?_⟩
    · rw [exec, execJumpIfZero_eq, if_pos hz]
    · rw [exec, execJumpIfZero_eq, if_neg hnz]

end Sys2Proof.Proofs
end

section
/-! PROOFS. The family spec/60_exceptions.md: what leaves Halted (R146), OutOfRange as a report no event can reach (R140,
decision D15), and the priority of simultaneous events (R144, decision D2). -/

namespace Sys2Proof.Machine

/-! ### Leaving Halted -/

/-- R160, R163: the core as reset and load leave it, about to fetch at 0 with its registers cleared. -/
structure Restarted (t : State) : Prop where
  pc : t.pc = 0
  ir : t.ir = 0
  ac : t.ac = 0
  phase : t.phase = .fetch

/-- R160: a reset restarts the core. -/
theorem resetEvent_restarted (s : State) : Restarted (resetEvent s) := ⟨rfl, rfl, rfl, rfl⟩

/-- R163: a load restarts the core. -/
theorem loadEvent_restarted {P : Params} {words : List Int} {s t : State} (h : loadEvent P words s = .next t) :
    Restarted t := by
  obtain ⟨-, rfl⟩ := loadEvent_next h
  exact ⟨rfl, rfl, rfl, rfl⟩

/-- R164: so does an assembly, which loads its image. -/
theorem assembleEvent_restarted {P : Params} {source : List (List Char)} {s t : State}
    (h : assembleEvent P source s = .next t) : Restarted t :=
  loadEvent_restarted h

/-! ### OutOfRange -/

/-- R33: a read reports OutOfRange exactly outside 0..15, when the rest of the instruction does not report it. -/
theorem readThen_outOfRange_iff {s : State} {a : Nat} {k : Byte → Result} (hk : ∀ v, k v ≠ .fault (.outOfRange a)) :
    readThen s a k = .fault (.outOfRange a) ↔ memorySize ≤ a := by
  refine ⟨fun h => ?_, fun h => if_pos h⟩
  by_contra hlt
  rw [readThen, if_neg hlt] at h
  split at h
  · exact hk _ h
  · cases h

/-- R33: a write reports OutOfRange exactly outside 0..15, when the rest of the instruction does not report it. -/
theorem writeThen_outOfRange_iff {s : State} {a : Nat} {v : Int} {k : State → Result}
    (hk : ∀ t, k t ≠ .fault (.outOfRange a)) : writeThen s a v k = .fault (.outOfRange a) ↔ memorySize ≤ a := by
  refine ⟨fun h => ?_, fun h => if_pos h⟩
  by_contra hlt
  rw [writeThen, if_neg hlt] at h
  exact hk _ h

/-- R105: the end of an instruction is no fault. -/
theorem endInstr_ne_fault (s : State) (f : Fault) : endInstr s ≠ .fault f := nofun

/-- R140: no instruction ends in a fault, because every operand address has 4 bits. -/
theorem exec_ne_fault (i : Instr) (s : State) (f : Fault) : exec i s ≠ .fault f := by
  rcases exec_next_or_refused i s with ⟨t, e⟩ | ⟨a, -, -, e⟩ <;> rw [e] <;> exact nofun

/-- R140: nor does a step event; PC, the address of a Fetch, has 4 bits too. -/
theorem stepEvent_ne_fault (P : Params) (s : State) (f : Fault) : stepEvent P s ≠ .fault f := by
  rcases stepEvent_next_or_refused P s with ⟨t, e⟩ | ⟨a, -, -, e⟩ <;> rw [e] <;> exact nofun

/-- R34: a load completes or is refused. -/
theorem loadEvent_ne_fault (P : Params) (words : List Int) (s : State) (f : Fault) : loadEvent P words s ≠ .fault f := by
  unfold loadEvent
  split <;> exact nofun

/-- R140: no host event ends in a fault. -/
theorem perform_ne_fault (P : Params) (e : HostEvent) (s : State) (f : Fault) : perform P e s ≠ .fault f := by
  cases e with
  | reset => exact nofun
  | load words => exact loadEvent_ne_fault P words s f
  | assemble source =>
    rw [perform, assembleEvent]
    exact loadEvent_ne_fault P _ s f
  | step => exact stepEvent_ne_fault P s f
  | decode w => exact exec_ne_fault (decodeLc3d w) s f

/-! ### Simultaneous events -/

/-- R144: a clock performs the event its inputs choose. -/
theorem clock_of_event {P : Params} {c : ClockInputs} {e : HostEvent} (h : c.event = some e) (s : State) :
    clock P c s = perform P e s := by
  rw [clock, h]

/-- R153: a clock whose inputs choose no event leaves the state as it is. -/
theorem clock_of_no_event {P : Params} {c : ClockInputs} (h : c.event = none) (s : State) : clock P c s = .next s := by
  rw [clock, h]

end Sys2Proof.Machine

namespace Sys2Proof.Proofs

open Sys2Proof.Machine

/-- Settles O39: a step event and an LC3D word keep Halted, and the other three events restart the core. -/
theorem onlyResetOrLoadLeavesHalted : Obligations.OnlyResetOrLoadLeavesHalted := by
  intro P s t hp h hne
  rcases stepWith_next h with ⟨-, hs⟩ | ⟨e, rfl⟩ | ⟨words, e, hl⟩ | ⟨source, e, ha⟩ | ⟨w, -, o, rfl⟩
  · exact absurd (stepEvent_halted_phase (s := s.setInputs s.inputs.tail) hp hs) hne
  · obtain ⟨hpc, hir, hac, hphase⟩ := resetEvent_restarted (s.setInputs s.inputs.tail)
    exact ⟨.inl e, hpc, hir, hac, hphase⟩
  · obtain ⟨hpc, hir, hac, hphase⟩ := loadEvent_restarted hl
    exact ⟨.inr (.inl ⟨words, e⟩), hpc, hir, hac, hphase⟩
  · obtain ⟨hpc, hir, hac, hphase⟩ := assembleEvent_restarted ha
    exact ⟨.inr (.inr ⟨source, e⟩), hpc, hir, hac, hphase⟩
  · exact absurd hp hne

/-- Settles O44: the two memory operations report OutOfRange by their bound alone, and no event gives them an address that
reaches it. -/
theorem noEventFaults : Obligations.NoEventFaults := by
  constructor
  · intro s a v
    exact ⟨readThen_outOfRange_iff fun _ => endInstr_ne_fault _ _, writeThen_outOfRange_iff fun _ => endInstr_ne_fault _ _⟩
  · exact fun P s f => perform_ne_fault P (nextEvent s) _ f

/-- Settles O53: the inputs of each clause choose its event, or none. -/
theorem eventPriority : Obligations.EventPriority := by
  intro P s load stp words
  exact ⟨clock_of_event rfl s, clock_of_event rfl s, clock_of_event rfl s, clock_of_no_event rfl s⟩

end Sys2Proof.Proofs
end

section
/-! PROOFS. The family spec/70_reset_and_hazards.md: the load event (R163), the reset event (R160), and the runner's
operations (R172 to R176), each of which moves the core by one event or not at all. -/

namespace Sys2Proof.Machine

/-! ### The load event -/

/-- R34: an address the list reaches holds the list's word, masked to 8 bits. -/
theorem imageWord_of_getElem?_int (P : Params) {words : List Int} {a : Addr} {v : Int} (h : words[a.toNat]? = some v) :
    imageWord P words a = mask 8 v := by
  rw [imageWord, h]

/-- R163: a load of at most 16 words completes, with the registers cleared and its image in memory. -/
theorem loadEvent_of_length_le {P : Params} {words : List Int} (h : words.length ≤ 16) (s : State) :
    loadEvent P words s = .next (s.clearRegisters.setMem (Memory.ofImage (imageWord P words))) :=
  if_pos (decide_eq_true h)

/-- R34: a longer list is refused (decision D26). -/
theorem loadEvent_of_lt_length {P : Params} {words : List Int} (h : 16 < words.length) (s : State) :
    loadEvent P words s = .refused (.imageTooLong words.length) :=
  if_neg fun hw => absurd (of_decide_eq_true hw) (Nat.not_le.mpr h)

/-! ### The runner's sessions -/

/-- R172: a session whose core completed an event keeps its run. -/
theorem Session.withCore_next {S T : Session} {r : Result} (h : S.withCore r = .next T) :
    T.run = S.run ∧ r = .next T.core := by
  unfold Session.withCore at h
  cases r with
  | next s =>
    cases h
    exact ⟨rfl, rfl⟩
  | fault f => cases h
  | refused f => cases h

/-- R175: a new speed is the interval of an active run. -/
theorem Session.setSpeed_run {S : Session} (h : S.run.isSome) (k : Nat) : (S.setSpeed k).run = some k := by
  obtain ⟨i, hi⟩ := Option.isSome_iff_exists.mp h
  rw [Session.setSpeed, hi, Option.map_some]

end Sys2Proof.Machine

namespace Sys2Proof.Proofs

open Sys2Proof.Machine

/-- Settles O52: the two lengths of a list, and the three kinds of address in the image a load completes. -/
theorem loadReplacesMemory : Obligations.LoadReplacesMemory := by
  intro P s words
  refine ⟨fun hlen => ⟨_, loadEvent_of_length_le hlen s, rfl, rfl, rfl, rfl, rfl, fun a => ?_⟩,
    fun hlen => loadEvent_of_lt_length hlen s⟩
  rw [State.setMem_mem, Memory.read_ofImage]
  refine ⟨fun v hv => ?listed, fun hbeyond hlt => ?zero, fun hbeyond hge => ?seed⟩
  case listed => rw [imageWord_of_getElem?_int P hv]
  case zero => rw [imageWord_of_length_le P hbeyond, if_neg (Nat.not_le.mpr hlt)]
  case seed => rw [imageWord_of_length_le P hbeyond, if_pos hge]

/-- Settles O51: reset clears the registers by its definition, and no other event than those O38 names leaves Halted. -/
theorem resetEventClearsRegisters : Obligations.ResetEventClearsRegisters := by
  intro P s
  obtain ⟨-, byEvent⟩ := legalPhaseTransitions
  refine ⟨⟨.none, rfl⟩, fun e t hp h hne => ?_⟩
  obtain ⟨-, leaves⟩ := byEvent P s t e h
  exact leaves hp hne

/-- Settles O60: runStep and re-assembly perform their one event on the core, and the other operations set the run alone. -/
theorem runnerOperationsKeepTheCore : Obligations.RunnerOperationsKeepTheCore := by
  intro P S k j source
  have hstep : ∀ s, stepEvent P S.core = .next s → S.runStep P = .next { S with core := s } := by
    intro s h
    rw [Session.runStep, h, Session.withCore]
  exact ⟨hstep, rfl, rfl, rfl, fun hrun => S.setSpeed_run hrun k, rfl, rfl, rfl,
    fun T h => Session.withCore_next (S := S.cancel) h⟩

end Sys2Proof.Proofs
end

section
/-! PROOFS. Runs of step events: on a loaded memory every one of them goes on (R101, R166), each makes at most the one memory
access of its phase (R35) and is refused only for that access, and the phase follows their number (R106, decision D25). -/

namespace Sys2Proof.Machine

/-! ### The step event on a loaded memory -/

/-- R34, R101: a step event leaves every word that has a value with a value. -/
theorem stepEvent_loaded {P : Params} {s t : State} (hs : Loaded s) (h : stepEvent P s = .next t) : Loaded t := by
  unfold Loaded at hs ⊢
  rcases (stepEvent_writes h).mem with e | ⟨-, -, e⟩ <;> rw [e]
  · exact hs
  · exact Memory.write_loaded _ _ hs

/-- R166: on a loaded memory no read is refused, so a step event has a next state. -/
theorem stepEvent_next_of_loaded {s : State} (P : Params) (hs : Loaded s) : ∃ t, stepEvent P s = .next t := by
  rcases stepEvent_next_or_refused P s with h | ⟨a, -, hnone, -⟩
  · exact h
  · have hsome := hs a
    rw [hnone] at hsome
    cases hsome

/-- R101: with an empty queue, a run of step events that can always go on answers a next state, whatever its length. -/
theorem runWith_progress {P : Params} {p : State → Prop} (hnext : ∀ s, p s → ∃ t, stepEvent P s = .next t ∧ p t)
    (n : Nat) {s : State} (hin : s.inputs = []) (hs : p s) : ∃ t, runWith P n s = .next t ∧ p t ∧ t.inputs = [] := by
  induction n generalizing s with
  | zero => exact ⟨s, rfl, hs, hin⟩
  | succ n ih =>
    obtain ⟨t, ht, hpt⟩ := hnext s hs
    obtain ⟨hinputs, -⟩ := Proofs.writePorts P s t ht
    rw [runWith_succ ((stepWith_of_no_input hin).trans ht)]
    exact ih (hinputs.trans hin) hpt

/-! ### The one access of a step event -/

/-- R31, R32, R35: what an access leaves of a memory. -/
def MemoryAccess.apply : MemoryAccess → Memory → Memory
  | .none, m => m
  | .read _, m => m
  | .write a v, m => m.write a.toNat v

/-- R35: an instruction changes memory by its access. -/
theorem exec_mem {i : Instr} {s t : State} (h : exec i s = .next t) : t.mem = (instrAccess i s).apply s.mem := by
  cases i with
  | load a | add a | sub a =>
    obtain ⟨v, -, e⟩ := readThen_next h
    cases e
    rfl
  | store a =>
    rw [exec, execStore_eq] at h
    cases h
    rfl
  | jumpIfZero a =>
    rw [exec, execJumpIfZero_eq] at h
    cases h
    rfl
  | _ =>
    cases h
    rfl

/-- R35: a step event changes memory by its access. -/
theorem stepEvent_mem {P : Params} {s t : State} (h : stepEvent P s = .next t) :
    t.mem = (stepAccess P s).apply s.mem := by
  unfold stepAccess
  rcases stepEvent_next h with ⟨hp, w, -, rfl⟩ | ⟨hp, rfl⟩ | ⟨hp, he⟩ | ⟨hp, rfl⟩ <;> rw [hp]
  · rfl
  · rfl
  · exact exec_mem (s := { s with response := .status .ok }) he
  · rfl

/-- R35: another memory that agrees on the word the access reads. -/
def MemoryAccess.Agrees (acc : MemoryAccess) (m m' : Memory) : Prop :=
  ∀ a, acc = .read a → m.read a.toNat = m'.read a.toNat

/-- R31: a read goes on alike on a memory that agrees on its word. -/
theorem readThen_withMem {s t : State} {a : Addr} {m : Memory} {k k' : Byte → Result}
    (hm : m.read a.toNat = s.mem.read a.toNat)
    (hk : ∀ v t, k v = .next t → ∃ m', k' v = .next { t with mem := m' })
    (h : readThen s a.toNat k = .next t) :
    ∃ m', readThen { s with mem := m } a.toNat k' = .next { t with mem := m' } := by
  obtain ⟨v, hv, e⟩ := readThen_next h
  obtain ⟨m', e'⟩ := hk v t e
  exact ⟨m', (readThen_of_read k' (hm.trans hv)).trans e'⟩

/-- R35: an instruction depends on no memory word but the one its access reads. -/
theorem exec_withMem {i : Instr} {s t : State} {m : Memory} (hm : (instrAccess i s).Agrees m s.mem)
    (h : exec i s = .next t) : ∃ m', exec i { s with mem := m } = .next { t with mem := m' } := by
  cases i with
  | load a | add a | sub a =>
    exact readThen_withMem (hm a rfl) (fun v t e => ⟨m, by cases e; rfl⟩) h
  | store a =>
    rw [exec, execStore_eq] at h ⊢
    cases h
    exact ⟨_, rfl⟩
  | jumpIfZero a =>
    rw [exec, execJumpIfZero_eq] at h ⊢
    cases h
    exact ⟨m, rfl⟩
  | _ =>
    cases h
    exact ⟨m, rfl⟩

/-- R35: a step event depends on no memory word but the one its access reads. -/
theorem stepEvent_withMem {P : Params} {s t : State} {m : Memory} (hm : (stepAccess P s).Agrees m s.mem)
    (h : stepEvent P s = .next t) : ∃ m', stepEvent P { s with mem := m } = .next { t with mem := m' } := by
  unfold stepAccess at hm
  rcases stepEvent_next h with ⟨hp, w, hw, rfl⟩ | ⟨hp, rfl⟩ | ⟨hp, he⟩ | ⟨hp, rfl⟩
  · rw [hp] at hm
    exact ⟨m, stepEvent_fetch hp ((hm s.pc rfl).trans hw)⟩
  · exact ⟨m, stepEvent_decode hp⟩
  · rw [hp] at hm
    obtain ⟨m', e⟩ := exec_withMem (s := { s with response := .status .ok }) hm he
    exact ⟨m', (stepEvent_execute (by exact hp)).trans e⟩
  · exact ⟨m, stepEvent_halted hp⟩

/-! ### Refusals -/

/-- R33, R166: a refused step event is the read of a word without a value, and names its address. -/
theorem stepEvent_refused {P : Params} {s : State} {f : Refusal} (h : stepEvent P s = .refused f) :
    ∃ a : Addr, stepAccess P s = .read a ∧ f = .unloadedMemory a.toNat ∧ s.mem.read a.toNat = none := by
  rcases stepEvent_next_or_refused P s with ⟨t, e⟩ | ⟨a, hacc, hnone, e⟩ <;> rw [h] at e <;> cases e
  exact ⟨a, hacc, rfl, hnone⟩

/-- R34: a refused load has a list of more than 16 words (decision D26). -/
theorem loadEvent_refused {P : Params} {words : List Int} {s : State} {f : Refusal}
    (h : loadEvent P words s = .refused f) : 16 < words.length ∧ f = .imageTooLong words.length := by
  by_cases hlen : words.length ≤ 16
  · rw [loadEvent_of_length_le hlen] at h
    cases h
  · rw [loadEvent_of_lt_length (Nat.lt_of_not_le hlen)] at h
    cases h
    exact ⟨Nat.lt_of_not_le hlen, rfl⟩

/-! ### The phase and the number of step events -/

/-- R106: the phases a machine can be in after `n` step events from Fetch (decision D25). -/
def PhaseAfter (n : Nat) : Phase → Prop
  | .fetch => n % 3 = 0
  | .decode => n % 3 = 1
  | .execute => n % 3 = 2
  | .halted => True

/-- R18: the phase a step event leads to, for any OPC. -/
theorem stepEvent_phase {P : Params} {s t : State} (h : stepEvent P s = .next t) :
    (s.phase = .fetch ∧ t.phase = .decode) ∨ (s.phase = .decode ∧ t.phase = .execute) ∨
    (s.phase = .execute ∧ (t.phase = .fetch ∨ t.phase = .halted)) ∨ (s.phase = .halted ∧ t.phase = .halted) := by
  rcases stepEvent_next h with ⟨hp, w, -, rfl⟩ | ⟨hp, rfl⟩ | ⟨hp, he⟩ | ⟨hp, rfl⟩
  · exact .inl ⟨hp, rfl⟩
  · exact .inr (.inl ⟨hp, rfl⟩)
  · refine .inr (.inr (.inl ⟨hp, ?_⟩))
    rcases exec_decodeToy8_next (s := { s with response := .status .ok }) he with ⟨m, -, hm⟩ | ⟨-, rfl⟩
    · rw [exec_ofMnemonic_phase hm]
      exact (ite_eq_or_eq (m = .halt) Phase.halted .fetch).symm
    · exact .inr rfl
  · exact .inr (.inr (.inr ⟨hp, hp⟩))

/-- R106: one step event more is one phase on. -/
theorem PhaseAfter.succ {P : Params} {n : Nat} {s t : State} (hs : PhaseAfter n s.phase)
    (h : stepEvent P s = .next t) : PhaseAfter (n + 1) t.phase := by
  rcases stepEvent_phase h with ⟨hp, ht⟩ | ⟨hp, ht⟩ | ⟨hp, ht | ht⟩ | ⟨hp, ht⟩ <;> rw [hp] at hs <;> rw [ht]
    <;> simp only [PhaseAfter] at hs ⊢ <;> omega

/-- R106: the phase follows the number of step events from Fetch. -/
theorem phaseAfter_runWith {P : Params} {n : Nat} {s t : State} (hp : s.phase = .fetch) (hin : s.inputs = [])
    (h : runWith P n s = .next t) : t.inputs = [] ∧ PhaseAfter n t.phase := by
  induction n generalizing t with
  | zero =>
    cases h
    exact ⟨hin, hp ▸ rfl⟩
  | succ n ih =>
    obtain ⟨u, hu, ht⟩ := runWith_add_next h
    obtain ⟨huin, hphase⟩ := ih hu
    rw [runWith_one, stepWith_of_no_input huin] at ht
    obtain ⟨hinputs, -⟩ := Proofs.writePorts P u t ht
    exact ⟨hinputs.trans huin, hphase.succ ht⟩

/-- R106: the step event that enters Halted completes an instruction. -/
theorem PhaseAfter.enters_halted {P : Params} {n : Nat} {s t : State} (hs : PhaseAfter n s.phase)
    (h : stepEvent P s = .next t) (hrun : s.phase ≠ .halted) (ht : t.phase = .halted) : (n + 1) % 3 = 0 := by
  have hp : s.phase = .execute := by
    rcases stepEvent_phase h with ⟨-, e⟩ | ⟨-, e⟩ | ⟨e, -⟩ | ⟨e, -⟩
    · simp [ht] at e
    · simp [ht] at e
    · exact e
    · exact absurd e hrun
  rw [hp] at hs
  simp only [PhaseAfter] at hs
  omega

end Sys2Proof.Machine

namespace Sys2Proof.Proofs

open Sys2Proof.Machine

/-- Settles O43: being loaded lets a step event go on and is kept by it. -/
theorem loadedMachineAlwaysSteps : Obligations.LoadedMachineAlwaysSteps := by
  intro P s n hs hin
  refine runWith_progress (fun s hs => ?_) n hin hs
  obtain ⟨t, ht⟩ := stepEvent_next_of_loaded P hs
  exact ⟨t, ht, stepEvent_loaded hs ht⟩

/-- Settles O14: memory changes by the access alone, and another memory that agrees on the word read leads to the same
registers. -/
theorem oneAccessPerStep : Obligations.OneAccessPerStep := by
  intro P s t _ h
  constructor
  · intro x
    rw [stepEvent_mem h]
    cases stepAccess P s with
    | none => rfl
    | read a => rfl
    | write a v => exact Memory.read_write s.mem a.toNat v x
  · intro m hm
    obtain ⟨m', e⟩ := stepEvent_withMem hm h
    exact ⟨_, e, rfl, rfl, rfl, rfl, rfl⟩

/-- Settles O45: of the five events a reset, an assembly and an LC3D word always complete, and the other two say why they
are refused. -/
theorem refusalsAreUnloadedOrTooLong : Obligations.RefusalsAreUnloadedOrTooLong := by
  intro P s f h
  unfold stepWith at h
  cases e : nextEvent s <;> rw [e] at h
  case step => exact .inl ⟨rfl, stepEvent_refused (s := s.setInputs s.inputs.tail) h⟩
  case load words => exact .inr ⟨words, rfl, loadEvent_refused h⟩
  case reset => cases h
  case assemble source =>
    rw [perform, assembleEvent_eq] at h
    cases h
  case decode w =>
    rw [perform, decodeLc3d, exec_ofLc3d] at h
    cases h

/-- Settles O36: the phase after n step events is one of `PhaseAfter n`, and Halted is entered from Execute. -/
theorem threeStepsPerInstruction : Obligations.ThreeStepsPerInstruction := by
  intro P s t n hp hin h
  obtain ⟨htin, hphase⟩ := phaseAfter_runWith hp hin h
  refine ⟨fun e => ?_, fun e => ?_, fun e => ?_, fun hrun u hu hhalt => ?_⟩
  · rwa [e] at hphase
  · rwa [e] at hphase
  · rwa [e] at hphase
  · rw [runWith_add h, runWith_one, stepWith_of_no_input htin] at hu
    exact hphase.enters_halted hu hrun hhalt

/-- Settles O37: the Decode step and the steps in Halted in one equation each. -/
theorem decodeAndHaltedSteps : Obligations.DecodeAndHaltedSteps := by
  intro P s
  exact ⟨stepEvent_decode, runWith_halted⟩

end Sys2Proof.Proofs
end

section
/-! PROOFS. Words of both formats: how many TOY8 words hold an instruction (R54), and what the LC3D unit shows of a word, bit
by bit (R57, R88). -/

namespace Sys2Proof.Machine

/-! ### Counting words by opcode -/

/-- R51: the opcode of a word given as its number. -/
theorem opcodeOf_ofNat (k : Nat) {j : Nat} (hj : j < 16) :
    opcodeOf (BitVec.ofNat 8 (16 * k + j)) = BitVec.ofNat 4 k := by
  apply BitVec.eq_of_toNat_eq
  simp only [opcodeOf, slice, mask_toNat, maskNat_natCast, BitVec.toNat_ofNat]
  omega

/-- R51: a property of the opcode holds of all sixteen words of an opcode number or of none. -/
theorem countP_words_of_opcode (p : Opcode → Bool) (k : Nat) :
    ((List.range 16).map (16 * k + ·)).countP (fun n => p (opcodeOf (BitVec.ofNat 8 n))) =
      if p (BitVec.ofNat 4 k) then 16 else 0 := by
  have hop : ∀ j ∈ List.range 16, p (opcodeOf (BitVec.ofNat 8 (16 * k + j))) = p (BitVec.ofNat 4 k) :=
    fun j hj => by rw [opcodeOf_ofNat k (List.mem_range.mp hj)]
  rw [List.countP_map]
  split
  · next h => exact List.countP_eq_length.mpr fun j hj => (hop j hj).trans h
  · next h => exact List.countP_eq_zero.mpr fun j hj hp => h ((hop j hj).symm.trans hp)

/-- R51: sixteen words share each opcode number. -/
theorem countP_words (p : Opcode → Bool) (m : Nat) :
    (List.range (16 * m)).countP (fun n => p (opcodeOf (BitVec.ofNat 8 n))) =
      16 * ((List.range m).map (BitVec.ofNat 4)).countP p := by
  induction m with
  | zero => rfl
  | succ m ih =>
    rw [Nat.mul_succ, List.range_add, List.countP_append, ih, countP_words_of_opcode, List.range_succ, List.map_append,
      List.countP_append, Nat.mul_add, List.map_singleton, List.countP_singleton, mul_ite]

/-- R54: seven opcode numbers are assigned, as nine of sixteen are not. -/
theorem countP_assigned {P : Params} (h : P.wf) : ((List.range 16).map (BitVec.ofNat 4)).countP P.assigned = 7 := by
  have hsplit := List.length_eq_countP_add_countP P.assigned (l := (List.range 16).map (BitVec.ofNat 4))
  have hun := Params.unassigned_length h
  rw [Params.unassigned, ← List.countP_eq_length_filter] at hun
  simp only [List.length_map, List.length_range, Bool.not_eq_true, Bool.decide_eq_false] at hsplit
  omega

/-! ### The fields an LC3D word shows -/

/-- R6: a slice of a word is the field of its bits. -/
theorem mask_slice {n : Nat} (w : BitVec n) (hi lo : Nat) :
    mask (hi - lo + 1) (slice w.toNat hi lo) = w.extractLsb' lo (hi - lo + 1) := by
  apply BitVec.eq_of_toNat_eq
  rw [mask_toNat, maskNat_natCast, slice, Nat.mod_mod, BitVec.extractLsb'_toNat, Nat.shiftRight_eq_div_pow]

/-- R6: a slice of one bit. -/
theorem slice_bit {n : Nat} (w : BitVec n) (i : Nat) : slice w.toNat i i = 1 ↔ w.getLsbD i = true := by
  rw [← BitVec.testBit_toNat, Nat.testBit_eq_decide_div_mod_eq, decide_eq_true_iff, slice, Nat.sub_self]
  exact Iff.rfl

/-- R7: the signed value depends on the residue modulo 2^n alone. -/
theorem sext_congr {n : Nat} {v w : Int} (h : v % ((2 ^ n : Nat) : Int) = w % ((2 ^ n : Nat) : Int)) :
    sext n v = sext n w := by
  rw [sext, sext, maskNat, maskNat, h]

/-- R57, R88: the mode output is bit 5. -/
theorem lc3dOperandOf_mode_eq (w : Lc3Word) : (lc3dOperandOf w).mode = w.extractLsb' 5 1 := by
  rw [← mask_slice w 5 5, ← lc3dOperandOf_mode]
  exact (mask_natCast_toNat _).symm

/-- R57, R88: the immediate output is there when bit 5 is 1, and is then the signed value of bits 4..0. -/
theorem immediateOf_lc3dOperandOf (w : Lc3Word) :
    immediateOf (lc3dOperandOf w) = if w.getLsbD 5 then some (w.extractLsb' 0 5).toInt else none := by
  unfold lc3dOperandOf
  by_cases hbit : w.getLsbD 5 = true
  · rw [if_pos ((slice_bit w 5).mpr hbit), if_pos hbit, immediateOf_imm, sext_congr (sext_emod 5 _),
      sext_eq_toInt_mask, mask_slice w 4 0]
  · rw [if_neg (mt (slice_bit w 5).mp hbit), if_neg hbit]
    rfl

/-- R88: the outputs for the operand of a word, as its bit fields. -/
theorem lc3dOutputs_decode (w : Lc3Word) :
    lc3dOutputs (mask 4 (slice w.toNat 15 12)) (mask 3 (slice w.toNat 11 9)) (mask 3 (slice w.toNat 8 6))
      (lc3dOperandOf w) =
    { opcode := w.extractLsb' 12 4, dr := w.extractLsb' 9 3, sr1 := w.extractLsb' 6 3, mode := w.extractLsb' 5 1,
      imm5 := w.extractLsb' 0 5, imm := if w.getLsbD 5 then some (w.extractLsb' 0 5).toInt else none } := by
  rw [lc3dOutputs, lc3dOperandOf_mode_eq, lc3dOperandOf_imm5, immediateOf_lc3dOperandOf, mask_slice w 15 12,
    mask_slice w 11 9, mask_slice w 8 6, mask_slice w 4 0]

/-- R57: the immediate a well-formed operand shows is its own. -/
theorem immediateOf_of_wf {v : Int} (h : (Lc3Operand.imm v).wf) : immediateOf (.imm v) = some v := by
  simp only [Lc3Operand.wf, Bool.and_eq_true, decide_eq_true_eq] at h
  obtain ⟨hlo, hhi⟩ := h
  rw [immediateOf, sext_mask_of_range hlo hhi]

end Sys2Proof.Machine

namespace Sys2Proof.Proofs

open Sys2Proof.Machine

/-- Settles O10: sixteen words for each opcode number, seven of which are assigned and nine are not. -/
theorem wordsSplitInto112And144 : Obligations.WordsSplitInto112And144 := by
  intro P hP
  have hun := Params.unassigned_length hP
  refine ⟨hun, ?_, ?_⟩
  · rw [← List.countP_eq_length_filter, countP_words P.assigned 16, countP_assigned hP]
  · rw [Params.unassigned, ← List.countP_eq_length_filter] at hun
    rw [← List.countP_eq_length_filter, countP_words (fun op => !P.assigned op) 16, hun]

/-- Settles O31: the row a word decodes to shows the word's own fields. -/
theorem lc3dWordShowsItsFields : Obligations.Lc3dWordShowsItsFields := by
  intro P s w
  rw [perform, decodeLc3d, exec_ofLc3d, lc3dOutputs_decode]
  rfl

/-- Settles O7: the word is the two fields side by side, and its opcode is the mnemonic's alone. -/
theorem toy8EncodingIsOpcodeThenOperand : Obligations.Toy8EncodingIsOpcodeThenOperand := by
  intro P m a
  refine ⟨encodeWith_ofMnemonic_eq_append P m a, fun hP => ?_⟩
  rw [← toy8Word_eq_append, decodeToy8_toy8Word hP]

/-- Settles O11: the eight words are evaluated. -/
theorem writtenWordsDecode : Obligations.WrittenWordsDecode := by
  unfold Obligations.WrittenWordsDecode
  decide

/-- Settles O30: every row shows its outputs, and a well-formed immediate is shown as it is. -/
theorem lc3dRowsShowOutputs : Obligations.Lc3dRowsShowOutputs := by
  intro s dr sr1 src hwf imm out
  have himm : immediateOf src = imm := by
    cases src with
    | imm v => exact immediateOf_of_wf hwf
    | raw bits => rfl
  have shows : ∀ op, exec (Instr.ofLc3d op dr sr1 src) s = out op := by
    intro op
    rw [exec_ofLc3d, lc3dOutputs, himm]
    rfl
  exact ⟨shows 0, shows 1, shows 2, shows 3, shows 4, shows 5, shows 6, shows 7, shows 8, shows 9, shows 10, shows 11,
    shows 12, shows 13, shows 14, shows 15⟩

end Sys2Proof.Proofs
end

section
/-! PROOFS. Memory and the instructions that remain: the canonical form is canonical (R30), memory at power-on (R25, R162),
ADD and SUB (R121, R122, R125) with the refusal of an unloaded read (R166), and HALT (R132). -/

namespace Sys2Proof.Machine

/-! ### The canonical form -/

/-- R31: a memory with rising addresses reads as a word exactly where it lists that word. -/
theorem Memory.read_eq_some_iff {m : Memory} (h : m.Pairwise fun c d => c.1 < d.1) {x : Nat} {v : Byte} :
    m.read x = some v ↔ (x, v) ∈ m := by
  induction m with
  | nil => simp [Memory.read, Memory.unlisted]
  | cons c m ih =>
    obtain ⟨b, w⟩ := c
    obtain ⟨hhead, htail⟩ := List.pairwise_cons.mp h
    rw [Memory.read, List.mem_cons, Prod.mk.injEq]
    by_cases hb : b = x
    · subst hb
      have hlater : (b, v) ∉ m := fun hm => absurd (hhead _ hm) (Nat.lt_irrefl b)
      simp [hlater, eq_comm]
    · rw [if_neg hb, ih htail]
      simp [Ne.symm hb]

/-- R30: two memories in canonical form with the same cells are the same list. -/
theorem Memory.eq_of_mem_iff {m n : Memory} (hm : m.wf) (hn : n.wf) (h : ∀ c, c ∈ m ↔ c ∈ n) : m = n := by
  have nodup : ∀ {l : Memory}, l.wf → l.Nodup := fun hl => hl.1.imp fun hlt e => absurd (e ▸ hlt) (Nat.lt_irrefl _)
  have hperm : m.Perm n := (List.perm_ext_iff_of_nodup (nodup hm) (nodup hn)).mpr h
  exact hperm.eq_of_pairwise (fun _ _ _ _ hlt hgt => absurd (hlt.trans hgt) (Nat.lt_irrefl _)) hm.1 hn.1

/-- R30, R31: in canonical form the cells are the words read at the sixteen addresses. -/
theorem Memory.mem_iff_read {m : Memory} (h : m.wf) {c : Host.Cell} :
    c ∈ m ↔ ∃ a : Addr, a.toNat = c.1 ∧ m.read a.toNat = some c.2 := by
  obtain ⟨hrise, hlt⟩ := h
  constructor
  · intro hc
    have hsmall : c.1 % 2 ^ 4 = c.1 := Nat.mod_eq_of_lt (hlt c hc)
    refine ⟨BitVec.ofNat 4 c.1, by rwa [BitVec.toNat_ofNat], ?_⟩
    rw [BitVec.toNat_ofNat, hsmall, Memory.read_eq_some_iff hrise]
    exact hc
  · rintro ⟨a, ha, hread⟩
    rw [ha, Memory.read_eq_some_iff hrise] at hread
    exact hread

/-! ### Arithmetic -/

/-- R125: the signed value of a sum is that of the sum of the signed values. -/
theorem sext_add_sext (n : Nat) (v w : Int) : sext n (sext n v + sext n w) = sext n (v + w) :=
  sext_congr (by rw [Int.add_emod, sext_emod, sext_emod, ← Int.add_emod])

/-- R125: the signed value of a difference is that of the difference of the signed values. -/
theorem sext_sub_sext (n : Nat) (v w : Int) : sext n (sext n v - sext n w) = sext n (v - w) :=
  sext_congr (by rw [Int.sub_emod, sext_emod, sext_emod, ← Int.sub_emod])

/-- R125: the unsigned value of a difference of words, as a residue. -/
theorem toNat_sub_emod {n : Nat} (x y : BitVec n) :
    ((x - y).toNat : Int) = ((x.toNat : Int) - y.toNat) % ((2 ^ n : Nat) : Int) := by
  rw [← mask_sub, mask_toNat, maskNat_emod]

theorem sext_toNat_add {n : Nat} (x y : BitVec n) :
    sext n ((x + y).toNat : Int) = sext n (sext n x.toNat + sext n y.toNat) := by
  rw [sext_add_sext, ← mask_add, mask_toNat]
  exact sext_congr (by rw [maskNat_emod, Int.emod_emod])

theorem sext_toNat_sub {n : Nat} (x y : BitVec n) :
    sext n ((x - y).toNat : Int) = sext n (sext n x.toNat - sext n y.toNat) := by
  rw [sext_sub_sext, toNat_sub_emod]
  exact sext_congr (Int.emod_emod _ _)

/-! ### HALT -/

/-- R104, R132: the step event in Execute, when IR holds a HALT. -/
theorem stepEvent_execute_halt {P : Params} {s : State} (hP : P.wf) (hp : s.phase = .execute)
    (hop : opcodeOf s.ir = P.opc .halt) :
    stepEvent P s = .next { s with phase := .halted, response := .status .ok } := by
  rw [stepEvent_execute hp, decodeToy8_of_opc hP hop]
  rfl

end Sys2Proof.Machine

namespace Sys2Proof.Proofs

open Sys2Proof.Machine

/-- Settles O13: the cells of a canonical memory are its reads, and rising addresses fix their order. -/
theorem equalReadsMakeEqualMemories : Obligations.EqualReadsMakeEqualMemories := by
  intro m n hm hn h
  refine Memory.eq_of_mem_iff hm hn fun c => ?_
  simp only [Memory.mem_iff_read hm, Memory.mem_iff_read hn, h]

/-- Settles O18: ADD in one equation, on a word that has a value. -/
theorem addResult : Obligations.AddResult := by
  constructor
  · exact fun P a => encodeWith_ofMnemonic_eq_append P .add a
  · intro s a v hv
    rw [exec, execAdd_eq, hv]

/-- Settles O19: SUB in one equation, on a word that has a value. -/
theorem subResult : Obligations.SubResult := by
  constructor
  · exact fun P a => encodeWith_ofMnemonic_eq_append P .sub a
  · intro s a v hv
    rw [exec, execSub_eq, hv]

/-- Settles O21: AC is the sum or the difference of words, whose residue modulo 256 both readings share. -/
theorem arithmeticIsRightForBothReadings : Obligations.ArithmeticIsRightForBothReadings := by
  intro s t a v hv
  constructor
  · intro h
    rw [addResult.2 s a v hv] at h
    cases h
    exact ⟨BitVec.toNat_add s.ac v, sext_toNat_add s.ac v⟩
  · intro h
    rw [subResult.2 s a v hv] at h
    cases h
    exact ⟨toNat_sub_emod s.ac v, sext_toNat_sub s.ac v⟩

/-- Settles O22: each of the three begins with the read, which is refused. -/
theorem unloadedReadIsRefused : Obligations.UnloadedReadIsRefused := by
  intro s a hnone
  refine ⟨?_, ?_, ?_⟩
  · rw [exec, execLoad_eq, hnone]
  · rw [exec, execAdd_eq, hnone]
  · rw [exec, execSub_eq, hnone]

/-- Settles O26: HALT in one equation, and the machine it leaves is in Halted. -/
theorem haltResult : Obligations.HaltResult := by
  refine ⟨fun P a => encodeWith_ofMnemonic_eq_append P .halt a, fun s a => rfl, fun P s hP hp hin hop => ?_⟩
  have hstep := (stepWith_of_no_input hin).trans (stepEvent_execute_halt hP hp hop)
  refine ⟨hstep, ?_⟩
  rw [runWith_succ hstep]
  exact runWith_halted (s := { s with phase := .halted, response := .status .ok }) rfl hin 0

/-- Settles O49: the empty memory is canonical, and a whole image is canonical and loaded. -/
theorem powerOnMemoryCanonical : Obligations.PowerOnMemoryCanonical := by
  exact ⟨Memory.reset_wf, fun initMem => ⟨Memory.ofImage_wf initMem, Memory.ofImage_loaded initMem⟩⟩

/-- Settles O50: both states have the registers of reset, and memory is empty or the image of INIT_MEM. -/
theorem powerOnState : Obligations.PowerOnState := by
  intro initMem s hs
  obtain ⟨hpc, hir, hac, hphase⟩ : s.pc = 0 ∧ s.ir = 0 ∧ s.ac = 0 ∧ s.phase = .fetch := by
    rcases hs with rfl | rfl <;> exact ⟨rfl, rfl, rfl, rfl⟩
  refine ⟨hpc, hir, hac, hphase, ?_, ?_⟩
  · rintro rfl a
    rfl
  · rintro rfl a
    exact Memory.read_ofImage initMem a

end Sys2Proof.Proofs
end

section
/-! PROOFS. The assembler reads what it should from a line: the letter case of a source makes no difference (R64), and the
canonical text of a word assembles to that word (R73). Folding letters keeps blanks, `;`, `-` and digits as they are, so it
passes through each stage of `parseLine`. -/

namespace Sys2Proof.Machine

/-! ### Folding letters to upper case -/

/-- R64: folding moves a letter to a letter and nothing else. -/
theorem upperChar_eq_self_or_letter (c : Char) :
    upperChar c = c ∨ (97 ≤ c.toNat ∧ c.toNat ≤ 122 ∧ (upperChar c).toNat = c.toNat - 32) := by
  unfold upperChar
  split
  · next h =>
    obtain ⟨hlo, hhi⟩ := h
    exact .inr ⟨hlo, hhi, Char.toNat_ofNat _ |>.trans (if_pos (.inl (by omega)))⟩
  · exact .inl rfl

/-- R64: a test of characters that no letter passes does not see the letter case. -/
theorem upperChar_invariant {p : Char → Bool} (hp : ∀ c : Char, 65 ≤ c.toNat → c.toNat ≤ 122 → p c = false)
    (c : Char) : p (upperChar c) = p c := by
  rcases upperChar_eq_self_or_letter c with e | ⟨hlo, hhi, e⟩
  · rw [e]
  · rw [hp c (by omega) hhi, hp (upperChar c) (by omega) (by omega)]

/-- A character outside `A` to `z` is no character of that range. -/
theorem beq_eq_false_of_range {d : Char} (hd : d.toNat < 65 ∨ 122 < d.toNat) {c : Char} (hlo : 65 ≤ c.toNat)
    (hhi : c.toNat ≤ 122) : (c == d) = false := by
  rw [beq_eq_false_iff_ne]
  rintro rfl
  omega

theorem isBlank_upperChar (c : Char) : isBlank (upperChar c) = isBlank c :=
  upperChar_invariant (p := isBlank) (fun c hlo hhi => by
    simp only [isBlank, beq_eq_false_of_range (d := ' ') (.inl (by decide)) hlo hhi,
      beq_eq_false_of_range (d := '\t') (.inl (by decide)) hlo hhi,
      beq_eq_false_of_range (d := '\r') (.inl (by decide)) hlo hhi, Bool.or_self]) c

theorem beq_upperChar {d : Char} (hd : d.toNat < 65 ∨ 122 < d.toNat) (c : Char) : (upperChar c == d) = (c == d) :=
  upperChar_invariant (p := (· == d)) (fun _ => beq_eq_false_of_range hd) c

theorem isDigit_upperChar (c : Char) : isDigit (upperChar c) = isDigit c :=
  upperChar_invariant (p := isDigit) (fun c hlo _ => by
    rw [isDigit, decide_eq_false (p := c.toNat ≤ 57) (by omega), Bool.and_false]) c

/-- R64: folding a digit leaves it. -/
theorem upperChar_of_isDigit {c : Char} (h : isDigit c = true) : upperChar c = c := by
  simp only [isDigit, Bool.and_eq_true, decide_eq_true_eq] at h
  obtain ⟨-, hhi⟩ := h
  exact if_neg (by omega)

theorem upperChar_upperChar (c : Char) : upperChar (upperChar c) = upperChar c := by
  rcases upperChar_eq_self_or_letter c with e | ⟨hlo, hhi, e⟩
  · rw [e, e]
  · exact if_neg (by omega)

/-! ### The stages of a line in either case -/

theorem stripComment_upper (line : List Char) : stripComment (line.map upperChar) = (stripComment line).map upperChar := by
  rw [stripComment, stripComment, List.takeWhile_map]
  refine congrArg (fun p => (line.takeWhile p).map upperChar) (funext fun c => ?_)
  exact congrArg Bool.not (beq_upperChar (d := ';') (.inl (by decide)) c)

theorem dropWhile_isBlank_upper (l : List Char) :
    (l.map upperChar).dropWhile isBlank = (l.dropWhile isBlank).map upperChar := by
  rw [List.dropWhile_map]
  exact congrArg (fun p => (l.dropWhile p).map upperChar) (funext isBlank_upperChar)

theorem trimBlanks_upper (line : List Char) : trimBlanks (line.map upperChar) = (trimBlanks line).map upperChar := by
  rw [trimBlanks, trimBlanks, dropWhile_isBlank_upper, ← List.map_reverse, dropWhile_isBlank_upper, List.map_reverse]

theorem tokensFrom_upper (word line : List Char) :
    tokensFrom (word.map upperChar) (line.map upperChar) = (tokensFrom word line).map (List.map upperChar) := by
  induction line generalizing word with
  | nil => cases word <;> rfl
  | cons c rest ih =>
    have hnil := ih []
    have hcons := ih (word ++ [c])
    rw [List.map_append] at hcons
    simp only [List.map_cons, tokensFrom, isBlank_upperChar, List.isEmpty_map]
    split
    · split
      · exact hnil
      · exact congrArg (word.map upperChar :: ·) hnil
    · exact hcons

theorem tokens_upper (line : List Char) : tokens (line.map upperChar) = (tokens line).map (List.map upperChar) :=
  tokensFrom_upper [] line

theorem lookupMnemonic_upper (token : List Char) : lookupMnemonic (token.map upperChar) = lookupMnemonic token := by
  have hidem : (token.map upperChar).map upperChar = token.map upperChar := by
    rw [List.map_map]
    exact List.map_congr_left fun c _ => upperChar_upperChar c
  rw [lookupMnemonic, lookupMnemonic, hidem]

theorem decimal_upper (token : List Char) : decimal (token.map upperChar) = decimal token := by
  have hall : (token.map upperChar).all isDigit = token.all isDigit := by
    rw [List.all_map]
    exact congrArg token.all (funext isDigit_upperChar)
  rw [decimal, decimal, List.isEmpty_map, hall]
  split
  · rfl
  · next h =>
    have hdigits : ∀ c ∈ token, isDigit c = true := by
      simp only [Bool.or_eq_true, Bool.not_eq_true', not_or, Bool.not_eq_false, List.all_eq_true] at h
      exact h.2
    rw [List.map_congr_left fun c hc => upperChar_of_isDigit (hdigits c hc), List.map_id']

/-- R66: what an operand token stands for, by whether it begins with `-`. -/
theorem operandValue_some_cons (c : Char) (rest : List Char) :
    operandValue (some (c :: rest)) =
      if c == '-' then -(((decimal rest).getD 0 : Nat) : Int) else (((decimal (c :: rest)).getD 0 : Nat) : Int) := by
  by_cases hc : c = '-'
  · subst hc
    rfl
  · rw [if_neg (by simpa using hc)]
    rw [operandValue]
    · exact nofun
    · exact fun _ e => hc (List.cons.inj e).1

theorem operandValue_upper (token : Option (List Char)) :
    operandValue (token.map (List.map upperChar)) = operandValue token := by
  match token with
  | none => rfl
  | some [] => rfl
  | some (c :: rest) =>
    have hword := decimal_upper (c :: rest)
    rw [List.map_cons] at hword
    rw [Option.map_some, List.map_cons, operandValue_some_cons, operandValue_some_cons, decimal_upper, hword,
      beq_upperChar (d := '-') (.inl (by decide))]

/-- R64: a line asks for the same in either case. -/
theorem parseLine_upper (line : List Char) : parseLine (line.map upperChar) = parseLine line := by
  unfold parseLine
  rw [stripComment_upper, trimBlanks_upper, tokens_upper]
  cases tokens (trimBlanks (stripComment line)) with
  | nil => rfl
  | cons first rest =>
    simp only [List.map_cons, lookupMnemonic_upper, List.head?_map, operandValue_upper]

/-- R60: what lines emit depends on what each asks for alone. -/
theorem emitLines_map {P : Params} {f : List Char → List Char} (hf : ∀ line, parseLine (f line) = parseLine line)
    (emitted : List Byte) (source : List (List Char)) :
    emitLines P emitted (source.map f) = emitLines P emitted source := by
  induction source generalizing emitted with
  | nil => rfl
  | cons line rest ih => simp only [List.map_cons, emitLines, hf, ih]

/-! ### Lines of one or two tokens -/

/-- A character that neither ends a token (R63) nor begins a comment (R61). -/
def isTokenChar (c : Char) : Bool := !isBlank c && c != ';'

/-- R61, R63: what a line keeps whole as one token. -/
structure IsToken (token : List Char) : Prop where
  ne_nil : token ≠ []
  chars : token.all isTokenChar = true

theorem IsToken.not_blank {token : List Char} (h : IsToken token) : ∀ c ∈ token, isBlank c = false := fun c hc => by
  have hchar := List.all_eq_true.mp h.chars c hc
  rw [isTokenChar, Bool.and_eq_true, Bool.not_eq_true'] at hchar
  exact hchar.1

theorem IsToken.no_comment {token : List Char} (h : IsToken token) : ∀ c ∈ token, (c != ';') = true := fun c hc => by
  have hchar := List.all_eq_true.mp h.chars c hc
  rw [isTokenChar, Bool.and_eq_true] at hchar
  exact hchar.2

/-- R61: nothing is trimmed between two characters that are not blank. -/
theorem trimBlanks_eq_self {line : List Char} (hhead : ∀ c ∈ line.head?, isBlank c = false)
    (hlast : ∀ c ∈ line.getLast?, isBlank c = false) : trimBlanks line = line := by
  have keep : ∀ {l : List Char}, (∀ c ∈ l.head?, isBlank c = false) → l.dropWhile isBlank = l := by
    intro l hl
    cases l with
    | nil => rfl
    | cons c l => exact List.dropWhile_cons_of_neg (by simp [hl c rfl])
  rw [trimBlanks, keep hhead, keep (by rwa [List.head?_reverse]), List.reverse_reverse]

/-- R63: the characters of a token are read on. -/
theorem tokensFrom_append {token : List Char} (h : ∀ c ∈ token, isBlank c = false) (word rest : List Char) :
    tokensFrom word (token ++ rest) = tokensFrom (word ++ token) rest := by
  induction token generalizing word with
  | nil => simp
  | cons c token ih =>
    have hc : isBlank c = false := h c List.mem_cons_self
    rw [List.cons_append, tokensFrom, hc, if_neg Bool.false_ne_true, ih fun d hd => h d (List.mem_cons_of_mem c hd)]
    simp

/-- R63: a token alone. -/
theorem IsToken.tokens_single {token : List Char} (h : IsToken token) : tokens token = [token] := by
  have hread := tokensFrom_append h.not_blank [] []
  rw [List.append_nil, List.nil_append] at hread
  rw [tokens, hread, tokensFrom, if_neg (by simpa using h.ne_nil)]

/-- R63: two tokens with a space between them. -/
theorem IsToken.tokens_pair {token token' : List Char} (h : IsToken token) (h' : IsToken token') :
    tokens (token ++ ' ' :: token') = [token, token'] := by
  have htail : tokensFrom [] token' = [token'] := h'.tokens_single
  rw [tokens, tokensFrom_append h.not_blank, List.nil_append, tokensFrom, if_pos (by decide),
    if_neg (by simpa using h.ne_nil), htail]

/-- R61: a token alone has no comment and no blanks to strip. -/
theorem IsToken.strip_single {token : List Char} (h : IsToken token) : trimBlanks (stripComment token) = token := by
  have hcomment : stripComment token = token :=
    List.takeWhile_eq_self_iff.mpr h.no_comment
  rw [hcomment]
  exact trimBlanks_eq_self (fun c hc => h.not_blank c (List.mem_of_mem_head? hc))
    fun c hc => h.not_blank c (List.mem_of_mem_getLast? hc)

/-- R61: nor have two tokens with a space between them. -/
theorem IsToken.strip_pair {token token' : List Char} (h : IsToken token) (h' : IsToken token') :
    trimBlanks (stripComment (token ++ ' ' :: token')) = token ++ ' ' :: token' := by
  have hcomment : stripComment (token ++ ' ' :: token') = token ++ ' ' :: token' := by
    refine List.takeWhile_eq_self_iff.mpr fun c hc => ?_
    rw [List.mem_append, List.mem_cons] at hc
    rcases hc with hc | rfl | hc
    · exact h.no_comment c hc
    · decide
    · exact h'.no_comment c hc
  rw [hcomment]
  refine trimBlanks_eq_self (fun c hc => ?_) fun c hc => ?_
  · rw [List.head?_append_of_ne_nil _ h.ne_nil] at hc
    exact h.not_blank c (List.mem_of_mem_head? hc)
  · rw [List.append_cons, List.getLast?_append_of_ne_nil _ h'.ne_nil] at hc
    exact h'.not_blank c (List.mem_of_mem_getLast? hc)

/-- R66: a mnemonic without an operand has operand value 0 (decision D8). -/
theorem IsToken.parseLine_single {token : List Char} {m : Mnemonic} (h : IsToken token)
    (hm : lookupMnemonic token = some m) : parseLine token = some (m, 0) := by
  simp only [parseLine, h.strip_single, h.tokens_single, hm]
  rfl

/-- R63, R66: a mnemonic and its operand. -/
theorem IsToken.parseLine_pair {token token' : List Char} {m : Mnemonic} (h : IsToken token) (h' : IsToken token')
    (hm : lookupMnemonic token = some m) :
    parseLine (token ++ ' ' :: token') = some (m, operandValue (some token')) := by
  simp only [parseLine, h.strip_pair h', h.tokens_pair h', hm, List.head?_cons]

/-- R60, R67: a source of one instruction emits its word, when the instruction region is not empty. -/
theorem assembleWords_of_parseLine {P : Params} {line : List Char} {m : Mnemonic} {d : Int} (hroom : 0 < P.dataBase)
    (h : parseLine line = some (m, d)) : assembleWords P [line] = [toy8Word (P.opc m) d] := by
  simp only [assembleWords, emitLines, h, List.length_nil, if_pos hroom, List.nil_append]

/-! ### The canonical text of a word -/

theorem isToken_spelling (m : Mnemonic) : IsToken (spelling m) := by
  cases m <;> exact ⟨by decide, by decide⟩

theorem isToken_decimalText (a : Addr) : IsToken (decimalText a.toNat) := by
  constructor <;> revert a <;> decide

/-- R64: the seven spellings differ. -/
theorem lookupMnemonic_spelling (m : Mnemonic) : lookupMnemonic (spelling m) = some m := by
  cases m <;> decide

/-- R66, R73: the decimal text of an operand is read as the operand. -/
theorem operandValue_decimalText (a : Addr) : operandValue (some (decimalText a.toNat)) = a.toNat := by
  revert a
  decide

/-- R73: the canonical text of an instruction, mnemonic and operand, is read as that instruction. -/
theorem parseLine_canonical (m : Mnemonic) (a : Addr) :
    parseLine (spelling m ++ ' ' :: decimalText a.toNat) = some (m, (a.toNat : Int)) := by
  rw [(isToken_spelling m).parseLine_pair (isToken_decimalText a) (lookupMnemonic_spelling m), operandValue_decimalText]

/-- R73: the listing of a word with an assigned opcode is a line that asks for its two fields. -/
theorem listing_of_mnemonicOf {P : Params} {w : Byte} {m : Mnemonic} (h : P.mnemonicOf (opcodeOf w) = some m) :
    ∃ line, listing P w = .text line ∧ parseLine line = some (m, ((operandOf w).toNat : Int)) := by
  rw [listing, h]
  by_cases hhalt : m = .halt ∧ operandOf w = 0
  · refine ⟨spelling m, if_pos hhalt, ?_⟩
    obtain ⟨-, hzero⟩ := hhalt
    rw [(isToken_spelling m).parseLine_single (lookupMnemonic_spelling m), hzero]
    rfl
  · exact ⟨_, if_neg hhalt, parseLine_canonical m (operandOf w)⟩

/-- R73: a word with an unassigned opcode has no text. -/
theorem listing_of_unassigned {P : Params} {w : Byte} (h : ∀ m, opcodeOf w ≠ P.opc m) : listing P w = .number w := by
  rw [listing, Params.mnemonicOf_eq_none.mpr h]

end Sys2Proof.Machine

namespace Sys2Proof.Proofs

open Sys2Proof.Machine

/-- Settles O56: every line asks for the same in upper case. -/
theorem assemblerIgnoresLetterCase : Obligations.AssemblerIgnoresLetterCase := by
  intro P source
  exact emitLines_map parseLine_upper [] source

/-- Settles O58: the text asks for the two fields of the word, which compose it. -/
theorem listingReassembles : Obligations.ListingReassembles := by
  intro P w hP hroom
  refine ⟨fun ⟨m, hm⟩ => ?_, listing_of_unassigned⟩
  obtain ⟨line, hline, hparse⟩ := listing_of_mnemonicOf ((Params.mnemonicOf_eq_some hP).mpr hm)
  refine ⟨line, hline, ?_⟩
  rw [assembleWords_of_parseLine hroom hparse, ← hm, toy8Word_fields]

end Sys2Proof.Proofs
end

section
/-! PROOFS. The Cycle Runner (R173): a tick issues one step event or ends the run, so ticks follow the machine's own steps
until it halts. -/

namespace Sys2Proof.Machine

/-- R100, R107: a step event outside Halted returns Ok. -/
theorem stepEvent_response {P : Params} {s t : State} (hp : s.phase ≠ .halted) (h : stepEvent P s = .next t) :
    t.response = .status .ok := by
  rcases stepEvent_next h with ⟨-, w, -, rfl⟩ | ⟨-, rfl⟩ | ⟨-, he⟩ | ⟨hhalt, -⟩
  · rfl
  · rfl
  · rcases exec_decodeToy8_next (s := { s with response := .status .ok }) he with ⟨m, -, hm⟩ | ⟨-, rfl⟩
    · obtain ⟨-, -, hresp, -⟩ := Proofs.toy8InstructionFrame _ _ _ _ hm
      exact hresp
    · rfl
  · exact absurd hhalt hp

theorem Session.settle_core (S : Session) : S.settle.core = S.core := by
  unfold Session.settle
  split <;> rfl

/-- R173: a run goes on while its core has not reached Halted. -/
theorem Session.settle_run (S : Session) : S.settle.run = if S.core.phase = .halted then none else S.run := by
  unfold Session.settle
  split <;> rfl

/-- R173: everything one tick can do: nothing without a run; end a run whose core is in Halted; or issue one step event,
after which the run goes on unless the core is in Halted now. -/
theorem Session.tick_next {P : Params} {S T : Session} (h : S.tick P = .next T) :
    (S.run = none ∧ T = S) ∨
    (S.run ≠ none ∧ S.core.phase = .halted ∧ T = S.cancel) ∨
    (S.run ≠ none ∧ S.core.phase ≠ .halted ∧ stepEvent P S.core = .next T.core ∧
      T.run = if T.core.phase = .halted then none else S.run) := by
  unfold Session.tick at h
  split at h
  · next hrun =>
    cases h
    exact .inl ⟨hrun, rfl⟩
  · next hrun =>
    split at h
    · next hhalt =>
      cases h
      exact .inr (.inl ⟨hrun, hhalt, rfl⟩)
    · next hhalt =>
      split at h <;> cases h
      next U hU =>
      obtain ⟨hkeep, hstep⟩ := Session.withCore_next hU
      rw [Session.settle_core, Session.settle_run, hkeep]
      exact .inr (.inr ⟨hrun, hhalt, hstep, rfl⟩)

/-- R173: `n + 1` ticks that complete are `n` ticks and one more. -/
theorem Session.ticks_succ_next {P : Params} {n : Nat} {S T : Session} (h : S.ticks P (n + 1) = .next T) :
    ∃ U, S.ticks P n = .next U ∧ U.tick P = .next T := by
  induction n generalizing S with
  | zero =>
    rw [Session.ticks] at h
    split at h <;> cases h
    exact ⟨S, rfl, by assumption⟩
  | succ n ih =>
    rw [Session.ticks] at h
    split at h
    · next V hV =>
      obtain ⟨U, hU, ht⟩ := ih h
      exact ⟨U, by rw [Session.ticks, hV]; exact hU, ht⟩
    · cases h
    · cases h

/-- R173: what `n` ticks make of a session: its core has made the machine's own steps, all `n` of them while a run is
active; an active run has its core outside Halted, a run that ended has it there, and no tick returned AlreadyHalted. -/
structure TicksFollowSteps (P : Params) (S T : Session) (n : Nat) : Prop where
  steps : ∃ j, j ≤ n ∧ runWith P j S.core = .next T.core ∧ (T.run ≠ none → j = n)
  active : 0 < n → T.run ≠ none → T.core.phase ≠ .halted
  ended : S.run ≠ none → T.run = none → T.core.phase = .halted
  response : S.core.response ≠ .status .alreadyHalted → T.core.response ≠ .status .alreadyHalted

theorem TicksFollowSteps.zero (P : Params) (S : Session) : TicksFollowSteps P S S 0 where
  steps := ⟨0, Nat.le_refl 0, rfl, fun _ => rfl⟩
  active := fun hpos => absurd hpos (Nat.lt_irrefl 0)
  ended := fun hrun hnone => absurd hnone hrun
  response := id

/-- A tick after which no run is active and which left the core alone. -/
theorem TicksFollowSteps.of_same_core {P : Params} {S T U : Session} {n : Nat} (h : TicksFollowSteps P S T n)
    (hcore : U.core = T.core) (hrun : U.run = none) (hend : S.run ≠ none → T.core.phase = .halted) :
    TicksFollowSteps P S U (n + 1) := by
  obtain ⟨j, hj, hsteps, -⟩ := h.steps
  rw [← hcore] at hsteps hend
  exact ⟨⟨j, Nat.le_succ_of_le hj, hsteps, fun hne => absurd hrun hne⟩, fun _ hne => absurd hrun hne,
    fun hne _ => hend hne, fun hne => hcore ▸ h.response hne⟩

/-- A tick that issued a step event on an active run. -/
theorem TicksFollowSteps.of_stepEvent {P : Params} {S T U : Session} {n : Nat} (h : TicksFollowSteps P S T n)
    (hin : S.core.inputs = []) (hrun : T.run ≠ none) (hhalt : T.core.phase ≠ .halted)
    (hstep : stepEvent P T.core = .next U.core) (hU : U.run = if U.core.phase = .halted then none else T.run) :
    TicksFollowSteps P S U (n + 1) := by
  obtain ⟨j, -, hsteps, hall⟩ := h.steps
  rw [hall hrun] at hsteps
  obtain ⟨htin, -⟩ := runWith_keeps (p := fun _ => True) (fun _ _ _ _ => trivial) hin trivial hsteps
  refine ⟨⟨n + 1, Nat.le_refl _, ?_, fun _ => rfl⟩, fun _ hne hp => ?_, fun _ hnone => ?_, fun _ => ?_⟩
  · rw [runWith_add hsteps, runWith_one, stepWith_of_no_input htin, hstep]
  · exact hne (hU.trans (if_pos hp))
  · by_contra hp
    exact hrun ((hU.trans (if_neg hp)).symm.trans hnone)
  · rw [stepEvent_response hhalt hstep]
    decide

/-- R173: a tick more. -/
theorem TicksFollowSteps.succ {P : Params} {S T U : Session} {n : Nat} (h : TicksFollowSteps P S T n)
    (hin : S.core.inputs = []) (htick : T.tick P = .next U) : TicksFollowSteps P S U (n + 1) := by
  rcases Session.tick_next htick with ⟨hrun, rfl⟩ | ⟨-, hhalt, rfl⟩ | ⟨hrun, hhalt, hstep, hU⟩
  · exact h.of_same_core rfl hrun fun hne => h.ended hne hrun
  · exact h.of_same_core rfl rfl fun _ => hhalt
  · exact h.of_stepEvent hin hrun hhalt hstep hU

/-- R173: ticks follow the steps of the core. -/
theorem Session.ticks_follow_steps {P : Params} {n : Nat} {S T : Session} (hin : S.core.inputs = [])
    (h : S.ticks P n = .next T) : TicksFollowSteps P S T n := by
  induction n generalizing T with
  | zero =>
    cases h
    exact .zero P S
  | succ n ih =>
    obtain ⟨U, hU, htick⟩ := Session.ticks_succ_next h
    exact (ih hU).succ hin htick

end Sys2Proof.Machine

namespace Sys2Proof.Proofs

open Sys2Proof.Machine

/-- Settles O59: the four clauses are what `TicksFollowSteps` says, kept from tick to tick. -/
theorem runnerTicksAreStepEvents : Obligations.RunnerTicksAreStepEvents := by
  intro P S T n hin h
  obtain ⟨hsteps, hactive, hended, hresponse⟩ := Session.ticks_follow_steps hin h
  exact ⟨hsteps, hactive, hended, hresponse⟩

end Sys2Proof.Proofs
end
